-- ==== Sys2Proof/Word.lean ====
section
/-! DEFINITION. The 32-bit word of the host window and of the command format, and the bit length of a natural number
(00_scope.md R7, R8). -/

namespace Sys2Proof

/-- A 32-bit word: a command word, STATUS, CTRL, CONFIG or one limb (00_scope.md R8). -/
abbrev Word := BitVec 32

/-- `bitLength(v)`: the least `k` with `v < 2^k`, 0 for 0 (00_scope.md R7). -/
def bitLength (v : Nat) : Nat := if v = 0 then 0 else Nat.log2 v + 1

end Sys2Proof
end

