-- ==== Sys2Proof/Machine/Arith.lean ====
section
/-! DEFINITION. The number theory of the commands on natural numbers: square-and-multiply (40_modmul_modexp.md R68), the
extended Euclidean algorithm (41_modinv.md R76), the small-prime table (10_state.md R22) and the Miller-Rabin witness
function (42_primality.md R81, R82). Recursion is structural, on a count of rounds that suffices. -/

namespace Sys2Proof.Machine

/-- The loop of 40_modmul_modexp.md R68, at most `fuel` times: `r` the result, `s` the square, `k` the bits of the exponent
not yet scanned. -/
def squareMultiply (n : Nat) : (fuel r s k : Nat) → Nat
  | 0, r, _, _ => r
  | fuel + 1, r, s, k =>
    if k = 0 then r
    else squareMultiply n fuel (if k % 2 = 1 then r * s % n else r) (s * s % n) (k / 2)

/-- `(b ^ e) mod n` for `n > 0` (40_modmul_modexp.md R67), computed as R68 says. -/
def powMod (b e n : Nat) : Nat := squareMultiply n (bitLength e) (1 % n) (b % n) e

/-- The loop of 41_modinv.md R76 modulo `b`, at most `fuel` times: the remainder and the coefficient it ends with. -/
def euclidLoop (b : Nat) : (fuel r0 r1 t0 t1 : Nat) → Nat × Nat
  | 0, r0, _, t0, _ => (r0, t0)
  | fuel + 1, r0, r1, t0, t1 =>
    if r1 = 0 then (r0, t0)
    else euclidLoop b fuel r1 (r0 - r0 / r1 * r1) t1 ((t0 + (b - r0 / r1 * t1 % b)) % b)

/-- `gcd(a, b)` and the coefficient of `a`, reduced modulo `b`, for `b > 0` (41_modinv.md R76). -/
def extendedEuclid (a b : Nat) : Nat × Nat := euclidLoop b b b (a % b) 0 (1 % b)

/-- `TABLE`: the 70 primes not above 349 (10_state.md R22). -/
def smallPrimes : List Nat :=
  [2, 3, 5, 7, 11, 13, 17, 19, 23, 29, 31, 37, 41, 43, 47, 53, 59, 61, 67, 71] ++
  [73, 79, 83, 89, 97, 101, 103, 107, 109, 113, 127, 131, 137, 139, 149, 151, 157, 163, 167, 173] ++
  [179, 181, 191, 193, 197, 199, 211, 223, 227, 229, 233, 239, 241, 251, 257, 263, 269, 271, 277, 281] ++
  [283, 293, 307, 311, 313, 317, 331, 337, 347, 349]

/-- No table prime divides `c` (42_primality.md R80). -/
def passesTrialDivision (c : Nat) : Bool := smallPrimes.all fun p => c % p != 0

/-- `(s, t)` with `m = 2^s * t` and `t` odd, for `m > 0`, at most `fuel` halvings (42_primality.md R81). -/
def splitTwos : (fuel m : Nat) → Nat × Nat
  | 0, m => (0, m)
  | fuel + 1, m =>
    if m % 2 = 0 then ((splitTwos fuel (m / 2)).1 + 1, (splitTwos fuel (m / 2)).2) else (0, m)

/-- The decomposition `n - 1 = 2^s * t` with `t` odd, for `n >= 2` (42_primality.md R81). -/
def decompose (n : Nat) : Nat × Nat := splitTwos (bitLength (n - 1)) (n - 1)

/-- "square x up to s−1 times": whether one of `k` squarings of `x` reaches `n - 1` (42_primality.md R82). -/
def squaringsReach (n : Nat) : (k x : Nat) → Bool
  | 0, _ => false
  | k + 1, x => if x * x % n = n - 1 then true else squaringsReach n k (x * x % n)

/-- `MRWitness(n, a)` is PASS, the corrected algorithm: the squarings run to their end (42_primality.md R82, R85). There is
no test for even `n` (R86). -/
def witnessPasses (n a : Nat) : Bool :=
  if powMod a (decompose n).2 n = 1 ∨ powMod a (decompose n).2 n = n - 1 then true
  else squaringsReach n ((decompose n).1 - 1) (powMod a (decompose n).2 n)

/-- How PTEST stands after the answers it has had (42_primality.md R84). -/
inductive PtestResult where
  /-- `n < 2`. -/
  | invalidInput
  /-- A draw is requested and not answered (60_exceptions.md R128). -/
  | waiting
  /-- An answer is below 2 or above `n - 1`. -/
  | witnessRange
  /-- A witness proved `n` composite. -/
  | composite
  /-- `n = 2`, or every round's witness passed. -/
  | probablyPrime
  deriving DecidableEq, Repr

/-- The round loop of PTEST: each round takes the next answer, tests its range, then the witness; it ends at the first
COMPOSITE (42_primality.md R84, 60_exceptions.md R119). -/
def ptestRounds (n : Nat) : (rounds : Nat) → (answers : List Nat) → PtestResult
  | 0, _ => .probablyPrime
  | _ + 1, [] => .waiting
  | k + 1, a :: rest =>
    if a < 2 ∨ n - 1 < a then .witnessRange
    else if witnessPasses n a then ptestRounds n k rest
    else .composite

/-- PTEST on `n` with the answers the random-number port has given (42_primality.md R84, R88, R89). -/
def ptestResult (n rounds : Nat) (answers : List Nat) : PtestResult :=
  if n < 2 then .invalidInput else if n = 2 then .probablyPrime else ptestRounds n rounds answers

end Sys2Proof.Machine
end

