-- ==== Sys2Proof/Config.lean ====
section
/-! DEFINITION. What an implementation of the NTE fixes (the operand width) and the free values: values the spec leaves
unspecified, which no proof can know. -/

namespace Sys2Proof

/-- The open parameter of the NTE, as an unknown number below 65534 (00_scope.md R5, 92_eei_decisions.md D2).
DESIGN CHOICE, safe: it has no body, so a theorem about it is about every width [log 1]. -/
opaque Config.widthIndex : Fin 65534

/-- The operand width `W`, with `2 <= W <= 65535` (00_scope.md R5). -/
def Config.width : Nat := Config.widthIndex.val + 2

/-- `L = ceil(W / 32)`, the number of limbs of an operand register of width `W` (00_scope.md R5). -/
def Config.limbs (W : Nat) : Nat := (W + 31) / 32

/-- Free value: what a host read returns where 20_memory.md R36 calls the value unspecified, taken at a counter so that
each read may differ. DESIGN CHOICE, safe: no body [log 4]. -/
opaque Config.freeWord : Nat → Word

/-- Free value: what an operand register holds where 70_reset_and_hazards.md R135 or R136 calls it unspecified, taken at a
counter and cut to the width where it is used. DESIGN CHOICE, safe: no body [log 5]. -/
opaque Config.freeOperand : Nat → Nat

end Sys2Proof
end

