-- ==== Sys2Proof/Machine/State.lean ====
section
/-! DEFINITION. The state of the NTE as plain data (10_state.md R10), the agents' turns, the reasons a step stops, and the
state after hard reset (10_state.md R24). -/

namespace Sys2Proof.Machine

/-- The error codes of `STATUS.ERR`: six, and codes 6 to 15 are never produced (60_exceptions.md R116, 10_state.md R18,
93_implementation_defined.md I7). -/
inductive ErrCode where
  /-- 0: no error. -/
  | noError
  /-- 1: the accepted word is no legal command. -/
  | illegalCmd
  /-- 2: the number under test is below 2. -/
  | invalidInput
  /-- 3: `gcd(a, b) != 1`. -/
  | divisionError
  /-- 4: the modulus register holds 0. -/
  | modulusZero
  /-- 5: a witness is below 2 or above `n - 1`. -/
  | witnessRange
  deriving DecidableEq, Repr

/-- The fields of `STATUS`; its other bits are reserved and read 0 (10_state.md R14). -/
structure Status where
  /-- Bit 0: a command is pending or executing. -/
  busy : Bool
  /-- Bit 1: a command has completed since the last accepted `CMD` write or reset. -/
  done : Bool
  /-- Bit 2: the verdict (10_state.md R16). -/
  v : Bool
  /-- Bits 7:4: the error code (10_state.md R18). -/
  err : ErrCode
  deriving DecidableEq, Repr

/-- What the host can do to the NTE: an access of the window of `size` bytes at byte offset `addr` (20_memory.md R32, R36,
R37), or hard reset (70_reset_and_hazards.md R135). -/
inductive HostAction where
  | read (size addr : Nat)
  | write (size addr : Nat) (value : Word)
  | hardReset
  deriving DecidableEq, Repr

/-- A turn of an agent other than the host: the random-number environment answers draw number `draw` with `r`, or the engine
makes its completion step if one is enabled (10_state.md R10). -/
inductive OtherTurn where
  | rng (draw r : Nat)
  | engine
  deriving DecidableEq, Repr

/-- One turn of one of the three agents (10_state.md R10): the host acts, or it polls STATUS until bit 0 is 0
(30_encoding.md R60), the other agents taking the turns `between` two polls, one list after each poll; the random-number
environment answers draw number `draw` with `r`; the engine makes its completion step if one is enabled. -/
inductive Event where
  | host (a : HostAction)
  | poll (between : List (List OtherTurn))
  | rng (draw r : Nat)
  | engine
  deriving DecidableEq, Repr

/-- The state. The spec's own state is `x`, `undef`, `status` and `pend` (10_state.md R10); the other five fields are the
model's: the environment's input and the host's record. -/
structure State where
  /-- Operand registers `x[0] .. x[7]`, each below `2^W` (10_state.md R11). -/
  x : Vector Nat 8
  /-- The defined marks `def[i][j]`, held as the numbers of the limbs of each register that are not defined, rising
(10_state.md R21) [log 18]. -/
  undef : Vector (List Nat) 8
  /-- The status word (10_state.md R14). -/
  status : Status
  /-- The pending-command latch `PEND` (10_state.md R13). -/
  pend : Option Word
  /-- The model's: the answers the random-number port has given the waiting PTEST, oldest first [log 8]. -/
  answers : List Nat
  /-- The model's: the number of the draw that the port stands at. An answer to it, and every reset, which withdraws it,
  moves on to the next number (60_exceptions.md R128, 70_reset_and_hazards.md R136) [log 8]. -/
  draws : Nat
  /-- The model's: where the next free value is taken [log 6]. -/
  fresh : Nat
  /-- The model's: the agents' turns to come, next first [log 7]. -/
  agenda : List Event
  /-- The model's: the words the host has read, oldest first (70_reset_and_hazards.md R147) [log 9]. -/
  reads : List Word
  deriving DecidableEq, Repr

/-- Why a step faults. -/
inductive Fault where
  /-- The engine's turn, with `BUSY = 1` and nothing in `PEND`. Raised by `completionStep`; 10_state.md R15 sets and clears
  the two together, so no run reaches it. Safe: the model stops [log 12]. -/
  | noPending
  deriving DecidableEq, Repr

/-- Why a step is refused. The three accesses are raised by the host window; they are outside the spec ("a model should
refuse it", 20_memory.md R32, R46). Safe: the model stops [log 11]. -/
inductive Refusal where
  /-- An instruction without a meaning yet. Raised by no arm of `exec`. Safe. -/
  | notModelled (mnemonic : String)
  /-- A window access that is not 32 bits wide (20_memory.md R32). Safe. -/
  | accessSize (size : Nat)
  /-- A window access at an offset that is no multiple of 4 (20_memory.md R32). Safe. -/
  | misaligned (addr : Nat)
  /-- A window access at or above `0x100 + 32*L` (20_memory.md R46). Safe. -/
  | outsideWindow (addr : Nat)
  deriving DecidableEq, Repr

/-- `STATUS` after a reset: all fields 0 (10_state.md R24). -/
def Status.reset : Status := { busy := false, done := false, v := false, err := .noError }

/-- The state right after hard reset (10_state.md R24): STATUS 0, PEND empty, every limb undefined. The registers'
contents are unspecified there; the value 0 is the model's. DESIGN CHOICE, unsafe [log 2]. -/
def State.reset : State where
  x := Vector.replicate 8 0
  undef := Vector.replicate 8 (List.range (Config.limbs Config.width))
  status := Status.reset
  pend := none
  answers := []
  draws := 0
  fresh := 0
  agenda := []
  reads := []

end Sys2Proof.Machine
end

