-- ==== Sys2Proof/Machine/Flags.lean ====
section
/-! DEFINITION. The status and configuration words as the host sees them (10_state.md R14, R20), and what each outcome of a
command puts into STATUS (R15 to R18). -/

namespace Sys2Proof.Machine

/-- The numeric value of an error code (60_exceptions.md R116). -/
def errNumber : ErrCode → Nat
  | .noError => 0
  | .illegalCmd => 1
  | .invalidInput => 2
  | .divisionError => 3
  | .modulusZero => 4
  | .witnessRange => 5

/-- `STATUS` as a 32-bit word: `BUSY` bit 0, `DONE` bit 1, `V` bit 2, `ERR` bits 7:4, the rest 0 (10_state.md R14). -/
def statusWord (st : Status) : Word :=
  BitVec.ofNat 32 (st.busy.toNat + 2 * st.done.toNat + 4 * st.v.toNat + 16 * errNumber st.err)

/-- `CONFIG`: `W` in bits 15:0, 8 registers in 19:16, 70 table entries in 27:20, version 1 in 31:28 (10_state.md R20). -/
def configWord (W : Nat) : Word := BitVec.ofNat 32 (W + 8 * 2 ^ 16 + 70 * 2 ^ 20 + 1 * 2 ^ 28)

/-- `STATUS` while a command is pending: `BUSY = 1, DONE = 0, V = 0, ERR = 0` (10_state.md R15). -/
def statusBusy : Status := { busy := true, done := false, v := false, err := .noError }

/-- `STATUS` after a command that ended without error, with its verdict (10_state.md R17). -/
def statusDone (verdict : Bool) : Status := { busy := false, done := true, v := verdict, err := .noError }

/-- `STATUS` after a command that ended with an error (60_exceptions.md R118). -/
def statusFailed (e : ErrCode) : Status := { busy := false, done := true, v := false, err := e }

end Sys2Proof.Machine
end

