-- ==== Sys2Proof/Syntax.lean ====
section
/-! DEFINITION. The six commands of the NTE, one constructor per row of spec/opcode_table.json (30_encoding.md R52). -/

namespace Sys2Proof

/-- The number of an operand register, `x0 .. x7` (10_state.md R11). -/
abbrev Reg := Fin 8

/-- A command. Operands stand in the order of the assembler (30_encoding.md R58): destination, sources, modulus; the
commands without a destination put the number under test first. -/
inductive Instr where
  /-- `MODMUL xd, xa, xb, xn` (40_modmul_modexp.md R66). -/
  | modmul (rd ra rb rn : Reg)
  /-- `MODEXP xd, xa, xb, xn` (40_modmul_modexp.md R67). -/
  | modexp (rd ra rb rn : Reg)
  /-- `MODINV xd, xa, xn` (41_modinv.md R75). -/
  | modinv (rd ra rn : Reg)
  /-- `TDIV xn` (42_primality.md R80). -/
  | tdiv (rn : Reg)
  /-- `MRROUND xn, xa` (42_primality.md R83). -/
  | mrround (rn ra : Reg)
  /-- `PTEST xn, rounds` (42_primality.md R84). -/
  | ptest (rn : Reg) (rounds : Nat)
  deriving DecidableEq, Repr

end Sys2Proof
end

