-- ==== Sys2Proof/WellFormed.lean ====
section
/-! DEFINITION. Which commands have an encoding. A register number is below 8 by its type; the one check left is that the
round count of PTEST fits its 16-bit immediate. -/

namespace Sys2Proof

/-- The command can be written as a 32-bit word: `rounds` is in `0 .. 65535` (30_encoding.md R54; a larger count "cannot
be given to one PTEST", 46_host_procedures.md R109). -/
def Instr.wellFormed : Instr → Bool
  | .modmul _ _ _ _ => true
  | .modexp _ _ _ _ => true
  | .modinv _ _ _ => true
  | .tdiv _ => true
  | .mrround _ _ => true
  | .ptest _ rounds => decide (rounds < 65536)

end Sys2Proof
end

