-- ==== Sys2Proof/Decode.lean ====
section
/-! DEFINITION. The decoder of command words, total on all 32-bit words and rejecting by name, and the encoder
(30_encoding.md R50 to R57). -/

namespace Sys2Proof

/-- Why a word is no legal command (30_encoding.md R56). -/
inductive Illegal where
  /-- `op = 0` or `op` in `7 .. 15`. -/
  | noSuchOp
  /-- A legal `op` with a non-zero bit in a field that must be 0. -/
  | reservedField
  deriving DecidableEq, Repr

/-- Bits `27:25` of format C (30_encoding.md R51). -/
def fieldRd (w : Word) : Reg := (w.extractLsb' 25 3).toFin

/-- Bits `24:22` of format C. -/
def fieldRa (w : Word) : Reg := (w.extractLsb' 22 3).toFin

/-- Bits `21:19` of format C. -/
def fieldRb (w : Word) : Reg := (w.extractLsb' 19 3).toFin

/-- Bits `18:16` of format C. -/
def fieldRn (w : Word) : Reg := (w.extractLsb' 16 3).toFin

/-- Bits `15:0` of format C, zero-extended (30_encoding.md R54). -/
def fieldImm (w : Word) : Nat := (w.extractLsb' 0 16).toNat

/-- Bits `31:28` of format C. -/
def fieldOp (w : Word) : Nat := (w.extractLsb' 28 4).toNat

/-- The word has the row's fixed bits: `(w AND mask) = match` (30_encoding.md R55). -/
def fits (w mask pattern : Word) : Bool := (w &&& mask) == pattern

/-- Which of the two ways of 30_encoding.md R56 an illegal word is illegal in. -/
def whyIllegal (w : Word) : Illegal :=
  if fieldOp w = 0 ∨ 7 ≤ fieldOp w then .noSuchOp else .reservedField

/-- The command a word stands for, or why there is none: the six masks and matches of 30_encoding.md R55. It depends on
the word alone (R57). -/
def decode (w : Word) : Except Illegal Instr :=
  if fits w 0xF000FFFF 0x10000000 then .ok (.modmul (fieldRd w) (fieldRa w) (fieldRb w) (fieldRn w))
  else if fits w 0xF000FFFF 0x20000000 then .ok (.modexp (fieldRd w) (fieldRa w) (fieldRb w) (fieldRn w))
  else if fits w 0xF038FFFF 0x30000000 then .ok (.modinv (fieldRd w) (fieldRa w) (fieldRn w))
  else if fits w 0xFFF8FFFF 0x40000000 then .ok (.tdiv (fieldRn w))
  else if fits w 0xFE38FFFF 0x50000000 then .ok (.mrround (fieldRn w) (fieldRa w))
  else if fits w 0xFFF80000 0x60000000 then .ok (.ptest (fieldRn w) (fieldImm w))
  else .error (whyIllegal w)

/-- The word of a byte-addressed bus: byte `k` carries bits `8k+7 .. 8k` (20_memory.md R35). -/
def wordOfBytes (b0 b1 b2 b3 : BitVec 8) : Word := b3 ++ b2 ++ b1 ++ b0

/-- The decoder on a stream of bytes, for a bus that carries bytes: one command is four of them (30_encoding.md R50).
`none` where fewer than four are left; else what the word stands for, and the bytes after it. -/
def decodeBytes : List (BitVec 8) → Option (Except Illegal Instr × List (BitVec 8))
  | b0 :: b1 :: b2 :: b3 :: rest => some (decode (wordOfBytes b0 b1 b2 b3), rest)
  | _ => none

/-- Format C from its six fields: `op*2^28 + rd*2^25 + ra*2^22 + rb*2^19 + rn*2^16 + imm` (30_encoding.md R51). -/
def formatC (op : Nat) (rd ra rb rn : Reg) (imm : Nat) : Word :=
  BitVec.ofNat 32
    (op * 2 ^ 28 + rd.val * 2 ^ 25 + ra.val * 2 ^ 22 + rb.val * 2 ^ 19 + rn.val * 2 ^ 16 + imm)

/-- The `op` field of a command (30_encoding.md R52). -/
def opcode : Instr → Nat
  | .modmul _ _ _ _ => 1
  | .modexp _ _ _ _ => 2
  | .modinv _ _ _ => 3
  | .tdiv _ => 4
  | .mrround _ _ => 5
  | .ptest _ _ => 6

/-- The word of a well-formed command; a field it does not use is 0 (30_encoding.md R51, R52). -/
def encode (i : Instr) : Word :=
  match i with
  | .modmul rd ra rb rn => formatC (opcode i) rd ra rb rn 0
  | .modexp rd ra rb rn => formatC (opcode i) rd ra rb rn 0
  | .modinv rd ra rn => formatC (opcode i) rd ra 0 rn 0
  | .tdiv rn => formatC (opcode i) 0 0 0 rn 0
  | .mrround rn ra => formatC (opcode i) 0 ra 0 rn 0
  | .ptest rn rounds => formatC (opcode i) 0 0 0 rn rounds

/-- The pseudo-instruction `MODSQR xd, xa, xn`, which is `MODMUL xd, xa, xa, xn` (30_encoding.md R59). -/
def modsqr (rd ra rn : Reg) : Instr := .modmul rd ra ra rn

/-- The first `nbits` bits of a table word, the bits above them 0. -/
def tableWord (nbits w : Nat) : Word := BitVec.ofNat 32 (w % 2 ^ nbits)

/-- The command the decoder reads from an instruction whose bits are `w`, numbered as spec/opcode_table.json numbers
them. A command is one 32-bit word, so the table's bits are the word's (30_encoding.md R50). -/
def decodeTableWord (nbits w : Nat) : Option Instr :=
  match decode (tableWord nbits w) with
  | .ok i => some i
  | .error _ => none

end Sys2Proof
end

