-- ==== Sys2Proof/Machine/Operands.lean ====
section
/-! DEFINITION. The operand registers: which of them a command reads and writes (10_state.md R26), their read and write,
their defined marks (R21), and their limbs (20_memory.md R33, R34). -/

namespace Sys2Proof.Machine

/-- The registers a command reads (10_state.md R26). -/
def sources : Instr → List Reg
  | .modmul _ ra rb rn => [ra, rb, rn]
  | .modexp _ ra rb rn => [ra, rb, rn]
  | .modinv _ ra rn => [ra, rn]
  | .tdiv rn => [rn]
  | .mrround rn ra => [rn, ra]
  | .ptest rn _ => [rn]

/-- The register a command writes when it ends without error, if it has one (10_state.md R26). -/
def destination : Instr → Option Reg
  | .modmul rd _ _ _ => some rd
  | .modexp rd _ _ _ => some rd
  | .modinv rd _ _ => some rd
  | .tdiv _ => none
  | .mrround _ _ => none
  | .ptest _ _ => none

/-- `x[r]`, the bits the register holds, defined or not: "The hardware computes with whatever bits a register holds"
(10_state.md R21) [log 3]. -/
def readReg (s : State) (r : Reg) : Nat := s.x[r.val]

/-- The limbs of `x[r]` that are not defined, rising (10_state.md R21). -/
def undefLimbs (s : State) (r : Reg) : List Nat := s.undef[r.val]

/-- Whether limb `j` of `x[r]` is defined (10_state.md R21). -/
def limbDefined (s : State) (r : Reg) (j : Nat) : Bool := !(undefLimbs s r).contains j

/-- A register is defined when all its limbs are (10_state.md R21). -/
def regDefined (s : State) (r : Reg) : Bool := (undefLimbs s r).isEmpty

/-- The first register the command reads that is not defined, if there is one (10_state.md R21, 60_exceptions.md R119). -/
def undefinedSource (i : Instr) (s : State) : Option Reg := (sources i).find? fun r => !regDefined s r

/-- `x[r] <- v` by a command: all limbs become defined at once (10_state.md R21). -/
def writeReg (s : State) (r : Reg) (v : Nat) : State :=
  { s with x := s.x.set r.val v, undef := s.undef.set r.val [] }

/-- `x[r]` becomes unspecified: a free value, every limb undefined (70_reset_and_hazards.md R136). DESIGN CHOICE, safe
[log 5]. -/
def forgetReg (W : Nat) (s : State) (r : Reg) : State :=
  { s with
    x := s.x.set r.val (Config.freeOperand s.fresh % 2 ^ W)
    undef := s.undef.set r.val (List.range (Config.limbs W))
    fresh := s.fresh + 1 }

/-- Bits `lo + width - 1 .. lo` of `v` (00_scope.md R7). -/
def bitsOf (v lo width : Nat) : Nat := v / 2 ^ lo % 2 ^ width

/-- `v` with those bits replaced by the low bits of `u`. -/
def setBits (v lo width u : Nat) : Nat :=
  v / 2 ^ (lo + width) * 2 ^ (lo + width) + u % 2 ^ width * 2 ^ lo + v % 2 ^ lo

/-- How many bits limb `j` has: 32, but for a top limb cut at bit `W - 1` (20_memory.md R34). -/
def limbWidth (W j : Nat) : Nat := min 32 (W - 32 * j)

/-- Limb `j` of `x[r]`, zero-extended to 32 bits: bits `min(32j+31, W-1) .. 32j` (20_memory.md R33, R36). -/
def readLimb (W : Nat) (s : State) (r : Reg) (j : Nat) : Word :=
  BitVec.ofNat 32 (bitsOf (readReg s r) (32 * j) (limbWidth W j))

/-- The host's write of limb `j` of `x[r]`: only that limb's bits change, and it becomes defined (20_memory.md R37). -/
def writeLimb (W : Nat) (s : State) (r : Reg) (j : Nat) (v : Word) : State :=
  { s with
    x := s.x.set r.val (setBits (readReg s r) (32 * j) (limbWidth W j) v.toNat)
    undef := s.undef.set r.val ((undefLimbs s r).filter fun k => k != j) }

end Sys2Proof.Machine
end

