-- ==== Sys2Proof/Machine/Ops.lean ====
section
/-! DEFINITION. The named operations on the state: accepting a command (20_memory.md R38), the two ends of a completion
step, `done` (10_state.md R17) and `fail` (60_exceptions.md R118, the NTE's only form of exception entry), and the two
resets (70_reset_and_hazards.md R135, R136). -/

namespace Sys2Proof.Machine

/-- A `CMD` write in IDLE: `PEND <- w`, `BUSY <- 1`, `DONE, V, ERR <- 0`; the word is not decoded (20_memory.md R38). -/
def acceptCommand (w : Word) (s : State) : State := { s with pend := some w, status := statusBusy }

/-- The end of a completion step: STATUS is written and `PEND` emptied in one step (10_state.md R15). Answers of the
random-number port that the command did not use are gone with it. DEDUCED, safe [log 8]. -/
def finish (st : Status) (s : State) : State := { s with status := st, pend := none, answers := [] }

/-- `fail <ERR>`: STATUS says the error, no operand register and no defined mark changes (60_exceptions.md R118). There is
no return from it: the next command runs normally (R120). -/
def fail (e : ErrCode) (s : State) : State := finish (statusFailed e) s

/-- `done` of a command without a destination, with its verdict (10_state.md R17). -/
def doneVerdict (verdict : Bool) (s : State) : State := finish (statusDone verdict) s

/-- `done` of a command with a destination: `x[rd] <- v`, `V <- 0` (10_state.md R17). -/
def doneWrite (rd : Reg) (v : Nat) (s : State) : State := finish (statusDone false) (writeReg s rd v)

/-- The completion step of an illegal word: `fail ILLEGAL_CMD` (30_encoding.md R56). -/
def failIllegal (s : State) : State := fail .illegalCmd s

/-- STATUS and `PEND` cleared, working values discarded, and a pending `RngDraw` withdrawn: its number is passed over, so
that a later answer to it meets no request (70_reset_and_hazards.md R136) [log 8]. -/
def clearSequencer (s : State) : State := { finish Status.reset s with draws := s.draws + 1 }

/-- The destination of the command that a soft reset aborts: `BUSY` was 1 and `PEND` decodes to MODMUL, MODEXP or MODINV
(70_reset_and_hazards.md R136). -/
def abortedDest (s : State) : Option Reg :=
  if s.status.busy then
    match s.pend with
    | some w =>
      match decode w with
      | .ok i => destination i
      | .error _ => none
    | none => none
  else none

/-- Soft reset: registers keep their values and marks, but for the destination of an aborted arithmetic command, which
becomes unspecified (70_reset_and_hazards.md R136). -/
def softReset (W : Nat) (s : State) : State :=
  match abortedDest s with
  | some rd => clearSequencer (forgetReg W s rd)
  | none => clearSequencer s

/-- Hard reset, from any state: STATUS 0, `PEND` empty, every limb of every register unspecified and undefined
(70_reset_and_hazards.md R135). The registers' contents are free values [log 5]. The host's record and the turns to come
are not the NTE's and stay. -/
def hardReset (W : Nat) (s : State) : State :=
  clearSequencer
    { s with
      x := Vector.ofFn fun r : Fin 8 => Config.freeOperand (s.fresh + r.val) % 2 ^ W
      undef := Vector.replicate 8 (List.range (Config.limbs W))
      fresh := s.fresh + 8 }

end Sys2Proof.Machine
end

