-- ==== Sys2Proof/Machine/ModArith.lean ====
section
/-! DEFINITION. The meanings of MODMUL (40_modmul_modexp.md R66), MODEXP (R67) and MODINV (41_modinv.md R75): the commands
with a destination register. Sources are read before the destination is written (R65). -/

namespace Sys2Proof.Machine

/-- MODMUL: `x[rd] <- (x[ra] * x[rb]) mod x[rn]`, the product exact; MODULUS_ZERO when `x[rn] = 0` (40_modmul_modexp.md
R66). -/
def execModmul (rd ra rb rn : Reg) (s : State) : Host.Outcome State Fault Refusal :=
  if readReg s rn = 0 then .next (fail .modulusZero s)
  else .next (doneWrite rd (readReg s ra * readReg s rb % readReg s rn) s)

/-- MODEXP: `x[rd] <- (x[ra] ^ x[rb]) mod x[rn]`; MODULUS_ZERO when `x[rn] = 0` (40_modmul_modexp.md R67, R68). -/
def execModexp (rd ra rb rn : Reg) (s : State) : Host.Outcome State Fault Refusal :=
  if readReg s rn = 0 then .next (fail .modulusZero s)
  else .next (doneWrite rd (powMod (readReg s ra) (readReg s rb) (readReg s rn)) s)

/-- MODINV: MODULUS_ZERO when `x[rn] = 0`, then DIVISION_ERROR when the gcd is not 1, else `x[rd]` is the inverse in
`0 .. x[rn] - 1` (41_modinv.md R75, R76). -/
def execModinv (rd ra rn : Reg) (s : State) : Host.Outcome State Fault Refusal :=
  if readReg s rn = 0 then .next (fail .modulusZero s)
  else if (extendedEuclid (readReg s ra) (readReg s rn)).1 ≠ 1 then .next (fail .divisionError s)
  else .next (doneWrite rd (extendedEuclid (readReg s ra) (readReg s rn)).2 s)

end Sys2Proof.Machine
end

