-- ==== Sys2Proof/Machine/Primality.lean ====
section
/-! DEFINITION. The meanings of TDIV (42_primality.md R80), MRROUND (R83) and PTEST (R84): the commands that write the
verdict bit and no register. -/

namespace Sys2Proof.Machine

/-- TDIV: `V <- 1` when no table prime divides `x[rn]`; it cannot fail (42_primality.md R80). -/
def execTdiv (rn : Reg) (s : State) : Host.Outcome State Fault Refusal :=
  .next (doneVerdict (passesTrialDivision (readReg s rn)) s)

/-- MRROUND: INVALID_INPUT when `n < 2`, then WITNESS_RANGE when the witness is outside `2 .. n-1`, else `V` is the
witness's verdict (42_primality.md R83). -/
def execMrround (rn ra : Reg) (s : State) : Host.Outcome State Fault Refusal :=
  if readReg s rn < 2 then .next (fail .invalidInput s)
  else if readReg s ra < 2 ∨ readReg s rn - 1 < readReg s ra then .next (fail .witnessRange s)
  else .next (doneVerdict (witnessPasses (readReg s rn) (readReg s ra)) s)

/-- PTEST with the answers the random-number port has given so far (42_primality.md R84). While a requested answer is
missing "the engine's completion step waits" (60_exceptions.md R128): nothing changes and `BUSY` stays 1 (R143) [log 8]. -/
def execPtest (rn : Reg) (rounds : Nat) (s : State) : Host.Outcome State Fault Refusal :=
  match ptestResult (readReg s rn) rounds s.answers with
  | .invalidInput => .next (fail .invalidInput s)
  | .witnessRange => .next (fail .witnessRange s)
  | .composite => .next (doneVerdict false s)
  | .probablyPrime => .next (doneVerdict true s)
  | .waiting => .next s

end Sys2Proof.Machine
end

