-- ==== Sys2Proof/Machine/Dispatch.lean ====
section
/-! DEFINITION. The meaning of each command: what the completion step does once the word is decoded (40_modmul_modexp.md
R65). -/

namespace Sys2Proof.Machine

def exec (i : Instr) (s : State) : Host.Outcome State Fault Refusal :=
  match i with
  | .modmul rd ra rb rn => Sys2Proof.Machine.execModmul rd ra rb rn s
  | .modexp rd ra rb rn => Sys2Proof.Machine.execModexp rd ra rb rn s
  | .modinv rd ra rn => Sys2Proof.Machine.execModinv rd ra rn s
  | .tdiv rn => Sys2Proof.Machine.execTdiv rn s
  | .mrround rn ra => Sys2Proof.Machine.execMrround rn ra s
  | .ptest rn rounds => Sys2Proof.Machine.execPtest rn rounds s

end Sys2Proof.Machine
end

