-- ==== Sys2Proof/Machine/Engine.lean ====
section
/-! DEFINITION. The engine's turn: the completion step common to all commands (40_modmul_modexp.md R65). -/

namespace Sys2Proof.Machine

/-- The completion step, for `BUSY = 1` (40_modmul_modexp.md R65): the word of `PEND` is decoded, and an illegal one fails
ILLEGAL_CMD; the command's rule runs on the bits its source registers hold, whatever they are and whether or not they are
defined (10_state.md R21). The fault that R21 advises a model to raise is the strict step's (Machine/Strict.lean) [log 3]. -/
def completionStep (s : State) : Host.Outcome State Fault Refusal :=
  match s.pend with
  | some w =>
    match decode w with
    | .ok i => exec i s
    | .error _ => .next (failIllegal s)
  | none => .fault .noPending

/-- The engine's turn: the completion step is enabled exactly when `BUSY = 1` (40_modmul_modexp.md R65); else the engine is
idle and holds its state (60_exceptions.md R126). -/
def engineTurn (s : State) : Host.Outcome State Fault Refusal :=
  if s.status.busy then completionStep s else .next s

end Sys2Proof.Machine
end

