-- ==== Sys2Proof/Machine/RandomPort.lean ====
section
/-! DEFINITION. The random-number port (60_exceptions.md R127, R128): when the engine asks for a witness, and what an arriving
answer does. -/

namespace Sys2Proof.Machine

/-- A request on the random-number port: the bounds the engine presents (60_exceptions.md R128). -/
structure RngRequest where
  lo : Nat
  hi : Nat
  deriving DecidableEq, Repr

/-- The request that stands on the port: `RngDraw(2, n - 1)` (42_primality.md R84, 60_exceptions.md R128) while `BUSY = 1` and
`PEND` holds a PTEST that needs a draw it has not had. -/
def rngRequest (s : State) : Option RngRequest :=
  if s.status.busy then
    match s.pend with
    | some w =>
      match decode w with
      | .ok (.ptest rn rounds) =>
        if ptestResult (readReg s rn) rounds s.answers = .waiting then
          some { lo := 2, hi := readReg s rn - 1 }
        else none
      | _ => none
    | none => none
  else none

/-- The engine waits for an answer. -/
def awaitsAnswer (s : State) : Bool := (rngRequest s).isSome

/-- The environment answers draw number `draw` with `r`, cut to `W` bits. The answer is kept when that draw is the one that
stands; an answer to a draw that a reset has withdrawn is discarded, also while a new PTEST waits (70_reset_and_hazards.md
R136), and so is one to a draw that no request waits for. That a number ties an answer to its request is the model's form of
the request/answer pair. DESIGN CHOICE, safe [log 8]. -/
def rngAnswer (W draw r : Nat) (s : State) : State :=
  if awaitsAnswer s = true ∧ draw = s.draws then
    { s with answers := s.answers ++ [r % 2 ^ W], draws := s.draws + 1 }
  else s

end Sys2Proof.Machine
end

