-- ==== Sys2Proof/Machine/Window.lean ====
section
/-! DEFINITION. The host window (20_memory.md): its map (R31), which accesses it has (R32, R46), and what a read returns (R36)
and a write does (R37). The window holds no state of its own: it is a view of the registers and of STATUS. -/

namespace Sys2Proof.Machine

/-- What stands at an offset of the window (20_memory.md R31). -/
inductive Slot where
  | cmd
  | status
  | ctrl
  | config
  | reserved
  | limb (r : Reg) (j : Nat)
  deriving DecidableEq, Repr

/-- The map of the window of `L`-limb registers, for an offset that is a multiple of 4; `none` outside it, at or above
`0x100 + 32*L` (20_memory.md R31, R46). -/
def slotAt (L addr : Nat) : Option Slot :=
  if addr = 0x000 then some .cmd
  else if addr = 0x004 then some .status
  else if addr = 0x008 then some .ctrl
  else if addr = 0x00C then some .config
  else if addr < 0x100 then some .reserved
  else if addr < 0x100 + 32 * L then
    some (.limb (Fin.ofNat 8 ((addr - 0x100) / 4 / L)) ((addr - 0x100) / 4 % L))
  else none

/-- The offset of limb `j` of `x[r]`: `0x100 + 4*(i*L + j)` (20_memory.md R31). -/
def limbOffset (L : Nat) (r : Reg) (j : Nat) : Nat := 0x100 + 4 * (r.val * L + j)

/-- The slot an access reaches, or why it is refused: it must be 32 bits wide, at a multiple of 4 (20_memory.md R32), and
inside the window (R46). -/
def checkAccess (W size addr : Nat) : Except Refusal Slot :=
  if size ≠ 4 then .error (.accessSize size)
  else if addr % 4 ≠ 0 then .error (.misaligned addr)
  else
    match slotAt (Config.limbs W) addr with
    | some slot => .ok slot
    | none => .error (.outsideWindow addr)

/-- What a read of a slot returns; `none` where 20_memory.md R36 calls the value unspecified: an operand limb while
`BUSY = 1`, or an undefined limb. -/
def slotValue (W : Nat) (s : State) : Slot → Option Word
  | .cmd => some 0
  | .status => some (statusWord s.status)
  | .ctrl => some 0
  | .config => some (configWord W)
  | .reserved => some 0
  | .limb r j =>
    if s.status.busy then none
    else if limbDefined s r j then some (readLimb W s r j)
    else none

/-- `HostRead`: the value joins what the host has read, and no state of the NTE changes (20_memory.md R36). An unspecified
value is a free value, taken anew at each read. DESIGN CHOICE, safe [log 4]. -/
def readSlot (W : Nat) (slot : Slot) (s : State) : State :=
  match slotValue W s slot with
  | some v => { s with reads := s.reads ++ [v] }
  | none => { s with reads := s.reads ++ [Config.freeWord s.fresh], fresh := s.fresh + 1 }

/-- `HostWrite`, the cases of 20_memory.md R37 in their order: soft reset in IDLE and in BUSY; lost while `BUSY = 1`; accept a
command; write a limb; nothing. -/
def writeSlot (W : Nat) (slot : Slot) (v : Word) (s : State) : State :=
  if slot = .ctrl ∧ v.getLsbD 0 = true then softReset W s
  else if s.status.busy then s
  else
    match slot with
    | .cmd => acceptCommand v s
    | .limb r j => writeLimb W s r j v
    | .status => s
    | .ctrl => s
    | .config => s
    | .reserved => s

/-- A host read of the window. -/
def hostRead (W size addr : Nat) (s : State) : Host.Outcome State Fault Refusal :=
  match checkAccess W size addr with
  | .ok slot => .next (readSlot W slot s)
  | .error e => .refused e

/-- A host write of the window. -/
def hostWrite (W size addr : Nat) (v : Word) (s : State) : Host.Outcome State Fault Refusal :=
  match checkAccess W size addr with
  | .ok slot => .next (writeSlot W slot v s)
  | .error e => .refused e

/-- What the host does at its turn. -/
def hostAct (W : Nat) (a : HostAction) (s : State) : Host.Outcome State Fault Refusal :=
  match a with
  | .read size addr => hostRead W size addr s
  | .write size addr v => hostWrite W size addr v s
  | .hardReset => .next (hardReset W s)

/-- A turn of another agent as an event. -/
def eventOf : OtherTurn → Event
  | .rng draw r => .rng draw r
  | .engine => .engine

/-- The turns after one poll of STATUS (`WAIT`, 30_encoding.md R60). If bit 0 read 0 the wait is over, and the turns planned
for later come as they are. If it read 1 the host polls again, after the turns planned between the two polls; where none are
planned, the engine takes its turn (70_reset_and_hazards.md R145). DESIGN CHOICE, safe [log 14]. -/
def turnsAfterPoll (bit0 : Bool) (between : List (List OtherTurn)) (rest : List Event) : List Event :=
  if bit0 then
    match between with
    | [] => .engine :: .poll [] :: rest
    | group :: later => group.map eventOf ++ .poll later :: rest
  else between.flatten.map eventOf ++ rest

/-- One poll of `WAIT`: a read of STATUS, whose bit 0 decides whether the host polls again (30_encoding.md R60). -/
def hostPoll (W : Nat) (between : List (List OtherTurn)) (rest : List Event) (s : State) : State :=
  readSlot W .status { s with agenda := turnsAfterPoll ((statusWord s.status).getLsbD 0) between rest }

/-- Byte `k` of a word on a byte-addressed bus: bits `8k+7 .. 8k` (20_memory.md R35). -/
def wordByte (v : Word) (k : Nat) : BitVec 8 := v.extractLsb' (8 * k) 8

/-- The byte a byte-addressed bus shows at an offset of the window, where the value of its word is specified
(20_memory.md R35). -/
def windowByte (W : Nat) (s : State) (addr : Nat) : Option (BitVec 8) :=
  match slotAt (Config.limbs W) (addr - addr % 4) with
  | some slot => (slotValue W s slot).map fun v => wordByte v (addr % 4)
  | none => none

end Sys2Proof.Machine
end

