-- ==== Sys2Proof/Machine/Step.lean ====
section
/-! DEFINITION. One step of the machine: the next turn of the agenda (10_state.md R10, 20_memory.md R41), or the completion
step that is still owed when the agenda is empty (70_reset_and_hazards.md R147). -/

namespace Sys2Proof.Machine

/-- One step of an NTE of operand width `W`. -/
def stepAt (W : Nat) (s : State) : Host.Outcome State Fault Refusal :=
  match s.agenda with
  | [] => engineTurn s
  | .engine :: rest => engineTurn { s with agenda := rest }
  | .host a :: rest => hostAct W a { s with agenda := rest }
  | .poll between :: rest => .next (hostPoll W between rest s)
  | .rng draw r :: rest => .next (rngAnswer W draw r { s with agenda := rest })

/-- One step of the NTE. -/
def step (s : State) : Host.Outcome State Fault Refusal := stepAt Config.width s

/-- `s` with the command word `w` accepted and the engine's turn next, so that `step` completes that command. It stands for the
host's write of `CMD` (20_memory.md R38) [log 10]. -/
def State.withFetchWord (s : State) (nbits w : Nat) : State :=
  { acceptCommand (tableWord nbits w) s with agenda := .engine :: s.agenda }

end Sys2Proof.Machine
end

