-- ==== Sys2Proof/Machine/Directives.lean ====
section
/-! DEFINITION. The host directives of the spec's programs (30_encoding.md R60, 20_memory.md R40) as sequences of turns. They
are shorthand for host accesses, not commands, and have no encoding. -/

namespace Sys2Proof.Machine

/-- A line of a host program (30_encoding.md R60). -/
inductive Directive where
  /-- `WR xi, value`. -/
  | wr (r : Reg) (value : Nat)
  /-- `RD xi`. -/
  | rd (r : Reg)
  /-- A command line. -/
  | cmd (i : Instr)
  /-- `WAIT`; the other agents take the turns `between` its polls. -/
  | wait (between : List (List OtherTurn))
  /-- `STAT`. -/
  | stat
  /-- `SRST`. -/
  | srst
  deriving DecidableEq, Repr

/-- One aligned 32-bit write. -/
def writeTurn (addr : Nat) (v : Word) : Event := .host (.write 4 addr v)

/-- One aligned 32-bit read. -/
def readTurn (addr : Nat) : Event := .host (.read 4 addr)

/-- The turns a directive stands for. `WR` and `RD` go over the `L` limbs, limb 0 first (20_memory.md R40); a command line is
a write of `CMD`; `WAIT` polls STATUS until bit 0 is 0; `STAT` is one read of STATUS; `SRST` writes 1 to `CTRL`. Which turns
come between the polls is open (20_memory.md R41) and free. DESIGN CHOICE, safe [log 14]. -/
def directiveTurns (W : Nat) : Directive → List Event
  | .wr r value =>
    (List.range (Config.limbs W)).map fun j =>
      writeTurn (limbOffset (Config.limbs W) r j) (BitVec.ofNat 32 (bitsOf value (32 * j) 32))
  | .rd r => (List.range (Config.limbs W)).map fun j => readTurn (limbOffset (Config.limbs W) r j)
  | .cmd i => [writeTurn 0x000 (encode i)]
  | .wait between => [.poll between]
  | .stat => [readTurn 0x004]
  | .srst => [writeTurn 0x008 1]

/-- The value of a register assembled from its limbs, limb 0 first: `sum over j of X[i][j] * 2^(32j)` (20_memory.md R33,
R40). -/
def assembleLimbs : List Word → Nat
  | [] => 0
  | v :: rest => v.toNat + 2 ^ 32 * assembleLimbs rest

end Sys2Proof.Machine
end

