-- ==== Sys2Proof/Machine/Strict.lean ====
section
/-! DEFINITION. The step with the fault that the spec advises a model to raise: a command that reads a register which is not
defined (10_state.md R21, 60_exceptions.md R119, R131). The machine of `step` goes on there, as R21 says of the hardware; this
one stops, and is `step` otherwise [log 3]. -/

namespace Sys2Proof.Machine

/-- Why a strict step faults. -/
inductive StrictFault where
  /-- The completion step of a legal command that reads a register which is not defined; `r` is the first such register
  [log 3]. Raised by `strictStepAt`, after decoding and before any test of an operand's value (60_exceptions.md R119). Safe:
  it stops where the hardware goes on with unspecified bits (10_state.md R21). -/
  | undefinedSource (r : Reg)
  /-- The step itself faults. Raised by `strictStepAt`. Safe. -/
  | ofStep (f : Fault)
  deriving DecidableEq, Repr

/-- Whether the engine has the next turn: it stands first on the agenda, or the agenda is empty (70_reset_and_hazards.md
R147). -/
def engineHasTurn (s : State) : Bool :=
  match s.agenda with
  | [] => true
  | .engine :: _ => true
  | .host _ :: _ => false
  | .poll _ :: _ => false
  | .rng _ _ :: _ => false

/-- The first register which is not defined that the pending command reads, if a legal command is pending and reads one
(10_state.md R21, R26). An illegal word reads none: it fails ILLEGAL_CMD before (60_exceptions.md R119). -/
def undefinedRead (s : State) : Option Reg :=
  if s.status.busy then
    match s.pend with
    | some w =>
      match decode w with
      | .ok i => undefinedSource i s
      | .error _ => none
    | none => none
  else none

/-- The same outcome, its fault as one of the strict step. -/
def strictOutcome (o : Host.Outcome State Fault Refusal) : Host.Outcome State StrictFault Refusal :=
  match o with
  | .next t => .next t
  | .fault f => .fault (.ofStep f)
  | .refused e => .refused e

/-- One step that stops where a command would read a register which is not defined (60_exceptions.md R131), for an NTE of operand
width `W`. -/
def strictStepAt (W : Nat) (s : State) : Host.Outcome State StrictFault Refusal :=
  match (if engineHasTurn s then undefinedRead s else none) with
  | some r => .fault (.undefinedSource r)
  | none => strictOutcome (stepAt W s)

/-- One such step of the NTE. -/
def strictStep (s : State) : Host.Outcome State StrictFault Refusal := strictStepAt Config.width s

end Sys2Proof.Machine
end

