-- ==== Sys2Proof/Safety.lean ====
section
/-! DEFINITION. What statements about runs rest on: the invariant of the state, the spec's condition that a command's
sources are defined, and the end of a run with its result. -/

namespace Sys2Proof.Machine

/-- The relations between fields that hold at reset and that every step keeps, for operand width `W`. -/
structure Inv (W : Nat) (s : State) : Prop where
  /-- Every operand register is below `2^W` (10_state.md R11). -/
  regBelow : ∀ r : Reg, readReg s r < 2 ^ W
  /-- Only limbs a register has are listed as not defined (10_state.md R21). -/
  undefBelow : ∀ r : Reg, ∀ j ∈ undefLimbs s r, j < Config.limbs W
  /-- They are listed rising, so that equal marks are equal data. -/
  undefRising : ∀ r : Reg, (undefLimbs s r).Pairwise (· < ·)
  /-- `BUSY = 1` exactly while `PEND` holds a word (10_state.md R15). -/
  busyPend : s.status.busy = s.pend.isSome
  /-- While `BUSY = 1`: `DONE = 0, V = 0, ERR = 0` (10_state.md R15). -/
  busyFlags : s.status.busy = true → s.status = statusBusy
  /-- Before any command completes, STATUS is 0 (10_state.md R14, R15). -/
  idleFlags : s.status.busy = false → s.status.done = false → s.status = Status.reset
  /-- An error comes with `V = 0` (10_state.md R18). -/
  errVerdict : s.status.err ≠ .noError → s.status.v = false
  /-- Answers of the random-number port are held only while `BUSY = 1` (70_reset_and_hazards.md R136). -/
  idleAnswers : s.status.busy = false → s.answers = []
  /-- Answers are `W`-bit values (60_exceptions.md R128). -/
  answersBelow : ∀ a ∈ s.answers, a < 2 ^ W

/-- Every register the command reads is defined: what the host must see to before a command (70_reset_and_hazards.md R138),
and what the strict step tests (10_state.md R21, 60_exceptions.md R119). -/
def SourcesDefined (i : Instr) (s : State) : Prop := ∀ r ∈ sources i, regDefined s r = true

/-- Whether a turn is an action of the host: an access, a hard reset, or a poll of STATUS. -/
def isHostTurn : Event → Bool
  | .host _ => true
  | .poll _ => true
  | .rng _ _ => false
  | .engine => false

/-- A run has ended: the host has no further action and `STATUS.BUSY = 0` (70_reset_and_hazards.md R147), whatever turns of the
other agents are left. -/
def Finished (s : State) : Prop := (∀ e ∈ s.agenda, isHostTurn e = false) ∧ s.status.busy = false

/-- The result of a run: what the host has read, and the final values of `x[0..7]` and `STATUS` (70_reset_and_hazards.md
R147). -/
structure RunResult where
  reads : List Word
  x : Vector Nat 8
  status : Word
  deriving DecidableEq, Repr

/-- The result of a run that ends in `s`. -/
def runResult (s : State) : RunResult := { reads := s.reads, x := s.x, status := statusWord s.status }

/-- `MRWitness(n, a) = PASS` as mathematics (42_primality.md R81, R82): with `n - 1 = 2^s * t` and `t` odd, `a^t mod n` is 1 or
`n - 1`, or one of its first `s - 1` repeated squares is `n - 1`. -/
def MRPass (n a : Nat) : Prop :=
  ∃ s t, n - 1 = 2 ^ s * t ∧ t % 2 = 1 ∧
    (a ^ t % n = 1 ∨ a ^ t % n = n - 1 ∨ ∃ j, 1 ≤ j ∧ j ≤ s - 1 ∧ a ^ (t * 2 ^ j) % n = n - 1)

/-- An answer of the random-number port that PTEST on `n` goes on from: in range, and its witness passes (42_primality.md
R84). -/
def GoodAnswer (n a : Nat) : Prop := 2 ≤ a ∧ a ≤ n - 1 ∧ MRPass n a

/-- What `fail <ERR>` leaves of `s` (60_exceptions.md R118); `answers`, the model's own field, is emptied [log 8]. -/
def failed (s : State) (e : ErrCode) : State :=
  { s with status := { busy := false, done := true, v := false, err := e }, pend := none, answers := [] }

/-- What `done` with a verdict leaves of `s` (10_state.md R17); `answers`, the model's own field, is emptied [log 8]. -/
def completed (s : State) (v : Bool) : State :=
  { s with status := { busy := false, done := true, v := v, err := .noError }, pend := none, answers := [] }

/-- What `done` with the register write `x[rd] <- v` leaves of `s` (10_state.md R17, R21); `answers`, the model's own field, is
emptied [log 8]. -/
def completedWith (s : State) (rd : Reg) (v : Nat) : State :=
  { s with
    x := s.x.set rd.val v
    undef := s.undef.set rd.val []
    status := { busy := false, done := true, v := false, err := .noError }
    pend := none
    answers := [] }

end Sys2Proof.Machine
end

