-- ==== Sys2Proof/Certificates/Slice0/Obligations.lean ====
section
/-! DEFINITION. The statements for the provers, from the numbered rules of spec/. The NTE has no memory (20_memory.md R30,
R45), so a frame speaks of the registers, their defined marks, STATUS, `PEND` and the model's own fields. -/

open Sys2Proof Sys2Proof.Machine

/-! Encoding. -/

/-- 30_encoding.md R62: the worked encodings and the illegal examples. -/
def Obligations.WorkedEncodings : Prop :=
  (encode (.modmul 6 5 3 0) = 0x1D580000 ∧ decode 0x1D580000 = .ok (.modmul 6 5 3 0)) ∧
  (encode (.modexp 3 1 2 0) = 0x26500000 ∧ decode 0x26500000 = .ok (.modexp 3 1 2 0)) ∧
  (encode (.modinv 4 1 0) = 0x38400000 ∧ decode 0x38400000 = .ok (.modinv 4 1 0)) ∧
  (encode (.tdiv 1) = 0x40010000 ∧ decode 0x40010000 = .ok (.tdiv 1)) ∧
  (encode (.mrround 1 2) = 0x50810000 ∧ decode 0x50810000 = .ok (.mrround 1 2)) ∧
  (encode (.ptest 1 20) = 0x60010014 ∧ decode 0x60010014 = .ok (.ptest 1 20)) ∧
  (encode (.modmul 7 7 7 7) = 0x1FFF0000 ∧ decode 0x1FFF0000 = .ok (.modmul 7 7 7 7)) ∧
  (encode (.ptest 7 65535) = 0x6007FFFF ∧ decode 0x6007FFFF = .ok (.ptest 7 65535)) ∧
  (encode (modsqr 2 1 0) = 0x14480000 ∧ decode 0x14480000 = .ok (.modmul 2 1 1 0)) ∧
  decode 0x00000000 = .error .noSuchOp ∧ decode 0x70000000 = .error .noSuchOp ∧
  decode 0x10000001 = .error .reservedField ∧ decode 0x38480000 = .error .reservedField ∧
  decode 0x42010000 = .error .reservedField ∧ decode 0x50090000 = .error .reservedField

/-- 30_encoding.md R51, R52, R55: no field of a command is lost, for every operand of every command. -/
def Obligations.DecodeOfEncode : Prop :=
  ∀ i : Instr, i.wellFormed = true → decode (encode i) = .ok i

/-- 30_encoding.md R52, R55: a word has one meaning, and it is the word of that command. -/
def Obligations.EncodeOfDecode : Prop :=
  ∀ (w : Word) (i : Instr), decode w = .ok i → i.wellFormed = true ∧ encode i = w

/-- 30_encoding.md R55: a word is the legal command exactly when its masked bits match, its register fields and its
immediate then stand in the bits of the pattern, the six patterns are disjoint, and a word that matches none is illegal. -/
def Obligations.LegalExactlyWhenMaskMatches : Prop :=
  ∀ w : Word,
    ((∃ rd ra rb rn, decode w = .ok (.modmul rd ra rb rn)) ↔ w &&& 0xF000FFFF = 0x10000000) ∧
    ((∃ rd ra rb rn, decode w = .ok (.modexp rd ra rb rn)) ↔ w &&& 0xF000FFFF = 0x20000000) ∧
    ((∃ rd ra rn, decode w = .ok (.modinv rd ra rn)) ↔ w &&& 0xF038FFFF = 0x30000000) ∧
    ((∃ rn, decode w = .ok (.tdiv rn)) ↔ w &&& 0xFFF8FFFF = 0x40000000) ∧
    ((∃ rn ra, decode w = .ok (.mrround rn ra)) ↔ w &&& 0xFE38FFFF = 0x50000000) ∧
    ((∃ rn rounds, decode w = .ok (.ptest rn rounds)) ↔ w &&& 0xFFF80000 = 0x60000000) ∧
    ((∃ e, decode w = .error e) ↔
      w &&& 0xF000FFFF ≠ 0x10000000 ∧ w &&& 0xF000FFFF ≠ 0x20000000 ∧ w &&& 0xF038FFFF ≠ 0x30000000 ∧
      w &&& 0xFFF8FFFF ≠ 0x40000000 ∧ w &&& 0xFE38FFFF ≠ 0x50000000 ∧ w &&& 0xFFF80000 ≠ 0x60000000) ∧
    (∀ rd ra rb rn, decode w = .ok (.modmul rd ra rb rn) ∨ decode w = .ok (.modexp rd ra rb rn) →
      rd.val = w.toNat / 2 ^ 25 % 8 ∧ ra.val = w.toNat / 2 ^ 22 % 8 ∧ rb.val = w.toNat / 2 ^ 19 % 8 ∧
      rn.val = w.toNat / 2 ^ 16 % 8) ∧
    (∀ rd ra rn, decode w = .ok (.modinv rd ra rn) →
      rd.val = w.toNat / 2 ^ 25 % 8 ∧ ra.val = w.toNat / 2 ^ 22 % 8 ∧ rn.val = w.toNat / 2 ^ 16 % 8) ∧
    (∀ rn, decode w = .ok (.tdiv rn) → rn.val = w.toNat / 2 ^ 16 % 8) ∧
    (∀ rn ra, decode w = .ok (.mrround rn ra) → ra.val = w.toNat / 2 ^ 22 % 8 ∧ rn.val = w.toNat / 2 ^ 16 % 8) ∧
    (∀ rn rounds, decode w = .ok (.ptest rn rounds) → rn.val = w.toNat / 2 ^ 16 % 8 ∧ rounds = w.toNat % 2 ^ 16)

/-- 30_encoding.md R56: which words are illegal; each is accepted in IDLE like any other, and its completion step fails
ILLEGAL_CMD, `STATUS = 0x12`, with no register changed. -/
def Obligations.IllegalWordsFail : Prop :=
  (∀ w : Word, (∃ e, decode w = .error e) ↔
    fieldOp w = 0 ∨ 7 ≤ fieldOp w ∨
    (fieldOp w = 1 ∧ fieldImm w ≠ 0) ∨
    (fieldOp w = 2 ∧ fieldImm w ≠ 0) ∨
    (fieldOp w = 3 ∧ (fieldRb w ≠ 0 ∨ fieldImm w ≠ 0)) ∨
    (fieldOp w = 4 ∧ (fieldRd w ≠ 0 ∨ fieldRa w ≠ 0 ∨ fieldRb w ≠ 0 ∨ fieldImm w ≠ 0)) ∨
    (fieldOp w = 5 ∧ (fieldRd w ≠ 0 ∨ fieldRb w ≠ 0 ∨ fieldImm w ≠ 0)) ∨
    (fieldOp w = 6 ∧ (fieldRd w ≠ 0 ∨ fieldRa w ≠ 0 ∨ fieldRb w ≠ 0))) ∧
  (∀ (W : Nat) (w : Word) (e : Illegal) (s : State), decode w = .error e → s.status.busy = false →
    ∃ t u, hostWrite W 4 0x000 w s = .next t ∧ t.status.busy = true ∧ engineTurn t = .next u ∧
      u.x = s.x ∧ u.undef = s.undef ∧ u.status = { busy := false, done := true, v := false, err := .illegalCmd } ∧
      statusWord u.status = 0x12)

/-- 30_encoding.md R59: MODSQR is MODMUL with the value named twice, and writes the modular square. -/
def Obligations.ModsqrIsSquare : Prop :=
  ∀ (rd ra rn : Reg) (s : State),
    encode (modsqr rd ra rn) = encode (.modmul rd ra ra rn) ∧
    (readReg s rn ≠ 0 →
      exec (modsqr rd ra rn) s = .next (completedWith s rd (readReg s ra ^ 2 % readReg s rn)))

/-- 20_memory.md R35, 30_encoding.md R50: on a bus of bytes a command is four bytes, lowest byte first. -/
def Obligations.DecodeOfBytes : Prop :=
  ∀ (w : Word) (rest : List (BitVec 8)),
    decodeBytes (wordByte w 0 :: wordByte w 1 :: wordByte w 2 :: wordByte w 3 :: rest) = some (decode w, rest)

/-! The step. -/

/-- 40_modmul_modexp.md R65: at the engine's turn, with `BUSY = 1`, the step is `exec` of the command that `PEND` decodes to,
on the bits its source registers hold, whether or not anything has written them (10_state.md R21) [log 3]; the turn taken leaves
the agenda, and nothing else stands around `exec`. The agenda is the model's [log 7]. -/
def Obligations.StepRunsDecodedCommand : Prop :=
  ∀ (s : State) (w : Word) (i : Instr), s.status.busy = true → s.pend = some w → decode w = .ok i →
    (s.agenda = [] → step s = exec i s) ∧
    (∀ rest, s.agenda = .engine :: rest → step s = exec i { s with agenda := rest })

/-- 10_state.md R21, 40_modmul_modexp.md R65, 60_exceptions.md R119, R131: the fault that the spec advises a model to raise, by the
strict step [log 3]: for every legal command that reads a register which is not defined, whatever the operands hold; an
illegal word still fails ILLEGAL_CMD, and a command whose sources are defined does not fault. WHICH undefined register the
fault names, the first in the order of `sources`, is the model's choice [log 3]. -/
def Obligations.UndefinedSourceFaults : Prop :=
  ∀ (W : Nat) (s : State) (w : Word), s.status.busy = true → s.pend = some w →
    (s.agenda = [] ∨ ∃ rest, s.agenda = .engine :: rest) →
    (∀ i r pre post, decode w = .ok i → sources i = pre ++ r :: post → (∀ q ∈ pre, regDefined s q = true) →
      regDefined s r = false → strictStepAt W s = .fault (.undefinedSource r)) ∧
    (∀ i, decode w = .ok i → SourcesDefined i s → ∃ t, strictStepAt W s = .next t ∧ stepAt W s = .next t) ∧
    (∀ e, decode w = .error e →
      strictStepAt W s = .next (failed { s with agenda := s.agenda.tail } .illegalCmd))

/-- 10_state.md R21, 60_exceptions.md R131: the two machines part nowhere else: where the strict step goes on or is refused, the
step does the same; and where it faults on an undefined source, the step goes on as the hardware does, for every state
[log 3]. -/
def Obligations.StrictStepAgrees : Prop :=
  ∀ (W : Nat) (s : State),
    (∀ t, strictStepAt W s = .next t → stepAt W s = .next t) ∧
    (∀ e, strictStepAt W s = .refused e ↔ stepAt W s = .refused e) ∧
    (∀ f, strictStepAt W s = .fault (.ofStep f) ↔ stepAt W s = .fault f) ∧
    (∀ r, strictStepAt W s = .fault (.undefinedSource r) → ∃ t, stepAt W s = .next t)

/-- 20_memory.md R38, 40_modmul_modexp.md R65: an accepted word runs at the next step. `withFetchWord` is the model's
[log 10]. -/
def Obligations.FetchWordRunsCommand : Prop :=
  ∀ (s : State) (nbits w : Nat) (i : Instr), decodeTableWord nbits w = some i →
    step (s.withFetchWord nbits w) =
      exec i { s with
        pend := some (tableWord nbits w)
        status := { busy := true, done := false, v := false, err := .noError } }

/-- 60_exceptions.md R126: "When no command is pending the engine is simply idle and holds its state." The agenda is
the model's [log 7]. -/
def Obligations.IdleEngineHoldsState : Prop :=
  ∀ (W : Nat) (s : State), s.status.busy = false →
    engineTurn s = .next s ∧ (s.agenda = [] → stepAt W s = .next s) ∧
    (∀ rest, s.agenda = .engine :: rest → stepAt W s = .next { s with agenda := rest })

/-- 20_memory.md R41: the turns are taken one at a time in the order of the agenda: a step takes its first turn and leaves the
rest; only a poll that reads `BUSY = 1` puts turns before the rest, and then it comes again itself (30_encoding.md R60). The
agenda is the model's [log 7]. -/
def Obligations.StepTakesOneTurn : Prop :=
  ∀ (W : Nat) (s t : State), stepAt W s = .next t →
    ((∀ between rest, s.agenda ≠ .poll between :: rest) → t.agenda = s.agenda.tail) ∧
    (∀ between rest, s.agenda = .poll between :: rest →
      ∃ turns : List OtherTurn, t.agenda = turns.map eventOf ++ rest ∧ s.status.busy = false ∨
        ∃ later, t.agenda = turns.map eventOf ++ .poll later :: rest ∧ s.status.busy = true)

/-! What each command computes. -/

/-- 40_modmul_modexp.md R66: the modular product, its error and its corner cases. -/
def Obligations.ModmulWritesProduct : Prop :=
  (∀ (rd ra rb rn : Reg) (s : State),
    (readReg s rn = 0 → exec (.modmul rd ra rb rn) s = .next (failed s .modulusZero)) ∧
    (readReg s rn ≠ 0 →
      exec (.modmul rd ra rb rn) s =
        .next (completedWith s rd (readReg s ra * readReg s rb % readReg s rn)) ∧
      readReg s ra * readReg s rb % readReg s rn < readReg s rn ∧
      (readReg s rn = 1 → readReg s ra * readReg s rb % readReg s rn = 0) ∧
      (readReg s ra = 0 ∨ readReg s rb = 0 → readReg s ra * readReg s rb % readReg s rn = 0))) ∧
  (∀ s : State, readReg s 0 = 23 → readReg s 5 = 4 → readReg s 3 = 14 →
    ∃ t, exec (.modmul 6 5 3 0) s = .next t ∧ readReg t 6 = 10)

/-- 40_modmul_modexp.md R67: the modular power, its error and its corner cases. -/
def Obligations.ModexpWritesPower : Prop :=
  (∀ (rd ra rb rn : Reg) (s : State),
    (readReg s rn = 0 → exec (.modexp rd ra rb rn) s = .next (failed s .modulusZero)) ∧
    (readReg s rn ≠ 0 →
      exec (.modexp rd ra rb rn) s =
        .next (completedWith s rd (readReg s ra ^ readReg s rb % readReg s rn)) ∧
      readReg s ra ^ readReg s rb % readReg s rn < readReg s rn ∧
      (readReg s rb = 0 → readReg s ra ^ readReg s rb % readReg s rn = 1 % readReg s rn) ∧
      (readReg s rn = 1 → readReg s ra ^ readReg s rb % readReg s rn = 0) ∧
      (readReg s ra = 0 → 0 < readReg s rb → readReg s ra ^ readReg s rb % readReg s rn = 0) ∧
      readReg s ra ^ readReg s rb % readReg s rn =
        (readReg s ra % readReg s rn) ^ readReg s rb % readReg s rn)) ∧
  (∀ s : State, readReg s 1 = 4 → readReg s 2 = 13 → readReg s 0 = 497 →
    ∃ t, exec (.modexp 3 1 2 0) s = .next t ∧ readReg t 3 = 445)

/-- 41_modinv.md R75: the unique inverse below the modulus, the two errors in their order, and the corner cases. -/
def Obligations.ModinvWritesInverse : Prop :=
  (∀ (rd ra rn : Reg) (s : State),
    (readReg s rn = 0 → exec (.modinv rd ra rn) s = .next (failed s .modulusZero)) ∧
    (readReg s rn ≠ 0 → Nat.gcd (readReg s ra) (readReg s rn) ≠ 1 →
      exec (.modinv rd ra rn) s = .next (failed s .divisionError)) ∧
    (readReg s rn ≠ 0 → Nat.gcd (readReg s ra) (readReg s rn) = 1 →
      ∃ y, exec (.modinv rd ra rn) s = .next (completedWith s rd y) ∧
        y ≤ readReg s rn - 1 ∧ readReg s ra * y % readReg s rn = 1 % readReg s rn ∧
        (∀ z, z ≤ readReg s rn - 1 → readReg s ra * z % readReg s rn = 1 % readReg s rn → z = y) ∧
        (readReg s ra % readReg s rn) * y % readReg s rn = 1 % readReg s rn ∧
        (readReg s rn = 1 → y = 0) ∧
        (readReg s ra = 1 → 2 ≤ readReg s rn → y = 1) ∧
        (readReg s ra = readReg s rn - 1 → 2 ≤ readReg s rn → y = readReg s rn - 1)) ∧
    (readReg s ra = 0 → 2 ≤ readReg s rn → exec (.modinv rd ra rn) s = .next (failed s .divisionError))) ∧
  (∀ s : State, readReg s 1 = 10 → readReg s 0 = 23 →
    ∃ t, exec (.modinv 4 1 0) s = .next t ∧ readReg t 4 = 7)

/-- 40_modmul_modexp.md R67, 41_modinv.md R75: the base of MODEXP and the value of MODINV count only modulo the modulus: two
states in which they agree modulo it give the same result and the same error. -/
def Obligations.OperandsCountModuloModulus : Prop :=
  ∀ (rd ra rb rn : Reg) (s t s' t' : State), readReg s rn = readReg t rn → readReg s rb = readReg t rb →
    readReg s ra % readReg s rn = readReg t ra % readReg t rn →
    (exec (.modexp rd ra rb rn) s = .next s' → exec (.modexp rd ra rb rn) t = .next t' →
      s'.status = t'.status ∧ (s'.status.err = .noError → readReg s' rd = readReg t' rd)) ∧
    (exec (.modinv rd ra rn) s = .next s' → exec (.modinv rd ra rn) t = .next t' →
      s'.status = t'.status ∧ (s'.status.err = .noError → readReg s' rd = readReg t' rd))

/-- 10_state.md R22: the table is the 70 primes not above 349, in increasing order. -/
def Obligations.TableIsSmallPrimes : Prop :=
  smallPrimes.length = 70 ∧ smallPrimes.Pairwise (· < ·) ∧
    ∀ p, p ∈ smallPrimes ↔ Nat.Prime p ∧ p ≤ 349

/-- 42_primality.md R80: the verdict of trial division, its corner cases and its worked example. -/
def Obligations.TdivVerdict : Prop :=
  (∀ (rn : Reg) (s : State), ∃ v : Bool, exec (.tdiv rn) s = .next (completed s v) ∧
    (v = true ↔ ∀ p ∈ smallPrimes, ¬ p ∣ readReg s rn) ∧
    (v = true ↔ ∀ p, Nat.Prime p → p ≤ 349 → ¬ p ∣ readReg s rn) ∧
    (readReg s rn ∈ smallPrimes → v = false) ∧
    (readReg s rn = 0 → v = false) ∧ (readReg s rn = 1 → v = true) ∧ (2 ∣ readReg s rn → v = false) ∧
    (readReg s rn = 353 → v = true) ∧ (readReg s rn = 353 * 353 → v = true) ∧
    (2 ≤ readReg s rn → readReg s rn < 124609 → v = true → Nat.Prime (readReg s rn))) ∧
  (∀ s : State, readReg s 1 = 561 → exec (.tdiv 1) s = .next (completed s false))

/-- 42_primality.md R81: the decomposition the engine uses is the one of the rule. -/
def Obligations.DecompositionOfPredecessor : Prop :=
  ∀ n, 2 ≤ n →
    n - 1 = 2 ^ (decompose n).1 * (decompose n).2 ∧ (decompose n).2 % 2 = 1 ∧ 1 ≤ (decompose n).2 ∧
    ¬ 2 ^ ((decompose n).1 + 1) ∣ n - 1 ∧
    (1 ≤ (decompose n).1 ↔ n % 2 = 1) ∧
    (n % 2 = 0 → (decompose n).1 = 0 ∧ (decompose n).2 = n - 1) ∧
    (∀ W, n < 2 ^ W → (decompose n).1 ≤ W - 1)

/-- 42_primality.md R82, R83: the errors in their order, the verdict, the corner cases and the worked example. -/
def Obligations.MrroundVerdict : Prop :=
  (∀ (rn ra : Reg) (s : State),
    (readReg s rn < 2 → exec (.mrround rn ra) s = .next (failed s .invalidInput)) ∧
    (2 ≤ readReg s rn → (readReg s ra < 2 ∨ readReg s rn - 1 < readReg s ra) →
      exec (.mrround rn ra) s = .next (failed s .witnessRange)) ∧
    (2 ≤ readReg s rn → 2 ≤ readReg s ra → readReg s ra ≤ readReg s rn - 1 →
      ∃ v : Bool, exec (.mrround rn ra) s = .next (completed s v) ∧
        (v = true ↔ MRPass (readReg s rn) (readReg s ra)) ∧
        (readReg s rn = 3 → v = true) ∧
        (readReg s ra = readReg s rn - 1 → v = true) ∧
        (readReg s rn % 2 = 0 → (v = true ↔
          readReg s ra ^ (readReg s rn - 1) % readReg s rn = 1 ∨
          readReg s ra ^ (readReg s rn - 1) % readReg s rn = readReg s rn - 1))) ∧
    (readReg s rn = 2 → exec (.mrround rn ra) s = .next (failed s .witnessRange)) ∧
    (ra = rn → exec (.mrround rn ra) s = .next (failed s .invalidInput) ∨
      exec (.mrround rn ra) s = .next (failed s .witnessRange))) ∧
  (∀ s : State, readReg s 1 = 561 → readReg s 2 = 2 →
    exec (.mrround 1 2) s = .next (completed s false))

/-- 42_primality.md R84: PTEST as a function of the answers of the random-number port: it ends at the first answer that is
out of range or proves `n` composite, reports 1 when every round's answer passes, and waits while an answer
is missing. That the answers stand in a list of the state is the model's choice [log 8]. -/
def Obligations.PtestFollowsAnswers : Prop :=
  ∀ (rn : Reg) (rounds : Nat) (s : State),
    (readReg s rn < 2 → exec (.ptest rn rounds) s = .next (failed s .invalidInput)) ∧
    (readReg s rn = 2 → exec (.ptest rn rounds) s = .next (completed s true)) ∧
    (3 ≤ readReg s rn →
      (rounds ≤ s.answers.length → (∀ a ∈ s.answers.take rounds, GoodAnswer (readReg s rn) a) →
        exec (.ptest rn rounds) s = .next (completed s true)) ∧
      (∀ pre a post, s.answers = pre ++ a :: post → pre.length < rounds →
        (∀ b ∈ pre, GoodAnswer (readReg s rn) b) →
        ((a < 2 ∨ readReg s rn - 1 < a) → exec (.ptest rn rounds) s = .next (failed s .witnessRange)) ∧
        (2 ≤ a → a ≤ readReg s rn - 1 → ¬ MRPass (readReg s rn) a →
          exec (.ptest rn rounds) s = .next (completed s false))) ∧
      (s.answers.length < rounds → (∀ a ∈ s.answers, GoodAnswer (readReg s rn) a) →
        exec (.ptest rn rounds) s = .next s))

/-- 42_primality.md R88: `n = 2` passes with no draw, for every round count; for `n = 3` every answer must be 2. -/
def Obligations.PtestOfTwoAndThree : Prop :=
  (∀ (rn : Reg) (rounds : Nat) (s : State), readReg s rn = 2 →
    exec (.ptest rn rounds) s = .next (completed s true) ∧
    (s.pend = some (encode (.ptest rn rounds)) → rounds < 65536 → awaitsAnswer s = false)) ∧
  (∀ (rn : Reg) (rounds : Nat) (s : State), readReg s rn = 3 → rounds ≤ s.answers.length →
    ((∀ a ∈ s.answers.take rounds, a = 2) → exec (.ptest rn rounds) s = .next (completed s true)) ∧
    ((∃ a ∈ s.answers.take rounds, a ≠ 2) → exec (.ptest rn rounds) s = .next (failed s .witnessRange)))

/-- 42_primality.md R89: with `rounds = 0` PTEST reports 1 for every `n >= 2`, and INVALID_INPUT below. -/
def Obligations.PtestWithoutRounds : Prop :=
  ∀ (rn : Reg) (s : State),
    (2 ≤ readReg s rn → exec (.ptest rn 0) s = .next (completed s true)) ∧
    (readReg s rn < 2 → exec (.ptest rn 0) s = .next (failed s .invalidInput))

/-- 42_primality.md R86: no test for even `n`: the verdict of a witness on an even `n >= 4`, what PTEST can report, and the
witnesses of 4. -/
def Obligations.EvenNumbersAreNotRejected : Prop :=
  (∀ n a, 4 ≤ n → n % 2 = 0 → 2 ≤ a → a ≤ n - 1 →
    (witnessPasses n a = true ↔ a ^ (n - 1) % n = 1 ∨ a ^ (n - 1) % n = n - 1) ∧ witnessPasses n (n - 1) = true) ∧
  (∀ (rn : Reg) (rounds : Nat) (s : State), 4 ≤ readReg s rn → readReg s rn % 2 = 0 → rounds ≤ s.answers.length →
    (∀ a ∈ s.answers.take rounds, a = readReg s rn - 1) → exec (.ptest rn rounds) s = .next (completed s true)) ∧
  witnessPasses 4 2 = false ∧ witnessPasses 4 3 = true

/-- 42_primality.md R87, 95_test_vectors.md S5: the nine witnesses in `2 .. 560` that pass for 561. -/
def Obligations.LiarsOf561 : Prop :=
  ((List.range 561).filter fun a => 2 ≤ a && witnessPasses 561 a) = [50, 101, 103, 256, 305, 458, 460, 511, 560]

/-- 42_primality.md R84, 93_implementation_defined.md G4, 95_test_vectors.md S5: a prime never fails: every witness in range
passes it, and PTEST reports 1 for every sequence of answers in range, which stand in the model's list [log 8]. -/
def Obligations.PrimeAlwaysPasses : Prop :=
  (∀ (rn ra : Reg) (s : State), Nat.Prime (readReg s rn) → 2 ≤ readReg s ra → readReg s ra ≤ readReg s rn - 1 →
    exec (.mrround rn ra) s = .next (completed s true)) ∧
  (∀ (rn : Reg) (rounds : Nat) (s : State), Nat.Prime (readReg s rn) → rounds ≤ s.answers.length →
    (∀ a ∈ s.answers.take rounds, 2 ≤ a ∧ a ≤ readReg s rn - 1) →
    exec (.ptest rn rounds) s = .next (completed s true))

/-! Errors, frames and what a command reads. -/

/-- 60_exceptions.md R117: which command ends with which code, the first condition of its row that holds, for a command
accepted as 10_state.md R15 says (`ERR = 0`). The draws of PTEST are the list of answers, and a PTEST that waits keeps the
status of its acceptance: the model's choice [log 8]. -/
def Obligations.ErrorsByCommand : Prop :=
  ∀ s t : State, s.status.err = .noError →
    (∀ w e, s.pend = some w → decode w = .error e → completionStep s = .next t → t.status.err = .illegalCmd) ∧
    (∀ rd ra rb rn, exec (.modmul rd ra rb rn) s = .next t →
      t.status.err = if readReg s rn = 0 then .modulusZero else .noError) ∧
    (∀ rd ra rb rn, exec (.modexp rd ra rb rn) s = .next t →
      t.status.err = if readReg s rn = 0 then .modulusZero else .noError) ∧
    (∀ rd ra rn, exec (.modinv rd ra rn) s = .next t →
      t.status.err = if readReg s rn = 0 then .modulusZero
        else if Nat.gcd (readReg s ra) (readReg s rn) ≠ 1 then .divisionError else .noError) ∧
    (∀ rn, exec (.tdiv rn) s = .next t → t.status.err = .noError) ∧
    (∀ rn ra, exec (.mrround rn ra) s = .next t →
      t.status.err = if readReg s rn < 2 then .invalidInput
        else if readReg s ra < 2 ∨ readReg s rn - 1 < readReg s ra then .witnessRange else .noError) ∧
    (∀ rn rounds, exec (.ptest rn rounds) s = .next t →
      (t.status.err = .invalidInput ↔ readReg s rn < 2) ∧
      (readReg s rn = 2 → t.status.err = .noError ∧ t.status.v = true) ∧
      (t.status.err = .witnessRange ↔ 3 ≤ readReg s rn ∧ ∃ pre a post, s.answers = pre ++ a :: post ∧
        pre.length < rounds ∧ (∀ b ∈ pre, GoodAnswer (readReg s rn) b) ∧ (a < 2 ∨ readReg s rn - 1 < a)) ∧
      (t.status.err = .noError ∨ t.status.err = .invalidInput ∨ t.status.err = .witnessRange))

/-- 60_exceptions.md R118: the whole effect of an error, whichever the command or word: STATUS and `PEND`, no register and
no defined mark. -/
def Obligations.FailureChangesOnlyStatus : Prop :=
  ∀ s t : State, s.status.err = .noError → completionStep s = .next t → t.status.err ≠ .noError →
    t = failed s t.status.err

/-- 10_state.md R26, R17: the frame of MODMUL, MODEXP and MODINV: every register but `x[rd]` keeps its value and its marks;
`BUSY = 0, DONE = 1, V = 0`, `PEND` empty; the model's own fields stay, but for the answers no command waits for. -/
def Obligations.FrameOfWritingCommands : Prop :=
  ∀ (i : Instr) (s t : State) (rd : Reg),
    ((∃ ra rb rn, i = .modmul rd ra rb rn) ∨ (∃ ra rb rn, i = .modexp rd ra rb rn) ∨
      (∃ ra rn, i = .modinv rd ra rn)) →
    exec i s = .next t →
    (∀ q, q ≠ rd → readReg t q = readReg s q ∧ undefLimbs t q = undefLimbs s q) ∧
    (t.status.err ≠ .noError → t.x = s.x ∧ t.undef = s.undef) ∧
    (t.status.err = .noError → regDefined t rd = true) ∧
    t.status.busy = false ∧ t.status.done = true ∧ t.status.v = false ∧ t.pend = none ∧ t.answers = [] ∧
    t.draws = s.draws ∧ t.fresh = s.fresh ∧ t.agenda = s.agenda ∧ t.reads = s.reads

/-- 10_state.md R26, R17: the frame of TDIV, MRROUND and PTEST: no register and no mark changes; TDIV and MRROUND always
complete; PTEST completes or, waiting for an answer, changes nothing at all [log 8]. -/
def Obligations.FrameOfVerdictCommands : Prop :=
  ∀ (i : Instr) (s t : State),
    ((∃ rn, i = .tdiv rn) ∨ (∃ rn ra, i = .mrround rn ra) ∨ (∃ rn rounds, i = .ptest rn rounds)) →
    exec i s = .next t →
    t.x = s.x ∧ t.undef = s.undef ∧ t.draws = s.draws ∧ t.fresh = s.fresh ∧ t.agenda = s.agenda ∧ t.reads = s.reads ∧
    ((t.status.busy = false ∧ t.status.done = true ∧ t.pend = none ∧ t.answers = [] ∧
        (t.status.err ≠ .noError → t.status.v = false)) ∨
      (∃ rn rounds, i = .ptest rn rounds) ∧ t = s)

/-- 40_modmul_modexp.md R65, 10_state.md R26: a command's outcome depends on the registers it names as
sources and on the answers of the random-number port, on nothing else of the state: not on STATUS,
not on an earlier command, not on other registers. -/
def Obligations.OutcomeDependsOnSourcesOnly : Prop :=
  ∀ (i : Instr) (s t s' t' : State), (∀ r ∈ sources i, readReg s r = readReg t r) → s.answers = t.answers →
    exec i s = .next s' → exec i t = .next t' →
    ((∃ rn rounds, i = .ptest rn rounds) ∧ s' = s ∧ t' = t) ∨
    (s'.status = t'.status ∧ s'.pend = t'.pend ∧
      (∀ rd, destination i = some rd → s'.status.err = .noError → readReg s' rd = readReg t' rd))

/-- 70_reset_and_hazards.md R142: every field of MODMUL may name the same register. -/
def Obligations.AliasedModmulGivesZero : Prop :=
  ∀ (r : Reg) (s : State), 0 < readReg s r →
    exec (.modmul r r r r) s = .next (completedWith s r 0)

/-! Status and configuration. -/

/-- 10_state.md R14, 60_exceptions.md R116: the places of the fields of STATUS and the numbers of the codes; the reserved bits
read 0. -/
def Obligations.StatusWordLayout : Prop :=
  ∀ st : Status,
    (statusWord st).getLsbD 0 = st.busy ∧ (statusWord st).getLsbD 1 = st.done ∧ (statusWord st).getLsbD 2 = st.v ∧
    (statusWord st).getLsbD 3 = false ∧ (statusWord st).toNat < 256 ∧
    (statusWord st).toNat / 16 =
      match st.err with
      | .noError => 0
      | .illegalCmd => 1
      | .invalidInput => 2
      | .divisionError => 3
      | .modulusZero => 4
      | .witnessRange => 5

/-- 10_state.md R20: what `CONFIG` reads, for every width, and that neither a write of it nor a hard reset changes what it
reads. -/
def Obligations.ConfigWordLayout : Prop :=
  ∀ (W : Nat) (s : State), 2 ≤ W → W ≤ 65535 →
    hostRead W 4 0x00C s = .next { s with reads := s.reads ++ [configWord W] } ∧
    hostRead W 4 0x00C (hardReset W s) = .next { hardReset W s with reads := s.reads ++ [configWord W] } ∧
    (∀ v, hostWrite W 4 0x00C v s = .next s) ∧
    (configWord W).toNat % 2 ^ 16 = W ∧ (configWord W).toNat / 2 ^ 16 % 2 ^ 4 = 8 ∧
    (configWord W).toNat / 2 ^ 20 % 2 ^ 8 = 70 ∧ (configWord W).toNat / 2 ^ 28 = 1

/-! The host window. -/

/-- 20_memory.md R38: a `CMD` write in IDLE is accepted, whatever the word; one while `BUSY = 1` is lost without trace. -/
def Obligations.CommandAcceptance : Prop :=
  ∀ (W : Nat) (w : Word) (s : State),
    (s.status.busy = false →
      hostWrite W 4 0x000 w s =
        .next { s with pend := some w, status := { busy := true, done := false, v := false, err := .noError } }) ∧
    (s.status.busy = true → hostWrite W 4 0x000 w s = .next s)

/-- 20_memory.md R37: the cases of a host write, in their order. -/
def Obligations.HostWriteCases : Prop :=
  ∀ (W : Nat) (v : Word) (s : State), 2 ≤ W →
    (v.getLsbD 0 = true → hostWrite W 4 0x008 v s = .next (softReset W s)) ∧
    (∀ addr, addr % 4 = 0 → addr < 0x100 + 32 * Config.limbs W → (addr = 0x008 → v.getLsbD 0 = false) →
      s.status.busy = true → hostWrite W 4 addr v s = .next s) ∧
    (s.status.busy = false →
      hostWrite W 4 0x000 v s =
        .next { s with pend := some v, status := { busy := true, done := false, v := false, err := .noError } } ∧
      (∀ (r : Reg) (j : Nat), j < Config.limbs W →
        ∃ t, hostWrite W 4 (0x100 + 4 * (r.val * Config.limbs W + j)) v s = .next t ∧
          (∀ k, (readReg t r).testBit k =
            if 32 * j ≤ k ∧ k ≤ min (32 * j + 31) (W - 1) then v.getLsbD (k - 32 * j) else (readReg s r).testBit k) ∧
          (∀ q, q ≠ r → readReg t q = readReg s q ∧ undefLimbs t q = undefLimbs s q) ∧
          (∀ k, limbDefined t r k = if k = j then true else limbDefined s r k) ∧
          t.status = s.status ∧ t.pend = s.pend ∧ t.answers = s.answers ∧ t.draws = s.draws ∧ t.fresh = s.fresh ∧
          t.agenda = s.agenda ∧ t.reads = s.reads) ∧
      (∀ addr, addr % 4 = 0 → (addr = 0x004 ∨ addr = 0x00C ∨ (addr = 0x008 ∧ v.getLsbD 0 = false) ∨
        (0x010 ≤ addr ∧ addr < 0x100)) → hostWrite W 4 addr v s = .next s))

/-- 20_memory.md R36: the cases of a host read; a read changes nothing but the host's own record (and, for an unspecified
value, where the next free value is taken: the free value is the model's form of "unspecified" [log 4]). -/
def Obligations.HostReadCases : Prop :=
  ∀ (W : Nat) (s : State), 2 ≤ W →
    hostRead W 4 0x000 s = .next { s with reads := s.reads ++ [0] } ∧
    hostRead W 4 0x004 s = .next { s with reads := s.reads ++ [statusWord s.status] } ∧
    hostRead W 4 0x008 s = .next { s with reads := s.reads ++ [0] } ∧
    hostRead W 4 0x00C s = .next { s with reads := s.reads ++ [configWord W] } ∧
    (∀ addr, addr % 4 = 0 → 0x010 ≤ addr → addr < 0x100 →
      hostRead W 4 addr s = .next { s with reads := s.reads ++ [0] }) ∧
    (∀ (r : Reg) (j : Nat), j < Config.limbs W →
      (s.status.busy = true ∨ limbDefined s r j = false →
        hostRead W 4 (0x100 + 4 * (r.val * Config.limbs W + j)) s =
          .next { s with reads := s.reads ++ [Config.freeWord s.fresh], fresh := s.fresh + 1 }) ∧
      (s.status.busy = false → limbDefined s r j = true →
        ∃ v : Word, hostRead W 4 (0x100 + 4 * (r.val * Config.limbs W + j)) s =
            .next { s with reads := s.reads ++ [v] } ∧
          v.toNat = readReg s r / 2 ^ (32 * j) % 2 ^ (min (32 * j + 31) (W - 1) + 1 - 32 * j)))

/-- 20_memory.md R32, R46: an access that is not an aligned 32-bit one inside the window is refused, and every other access has
a result. The refusal is the model's [log 11]. -/
def Obligations.AccessesOutsideTheWindowAreRefused : Prop :=
  ∀ (W size addr : Nat) (v : Word) (s : State),
    (size ≠ 4 → hostRead W size addr s = .refused (.accessSize size) ∧
      hostWrite W size addr v s = .refused (.accessSize size)) ∧
    (addr % 4 ≠ 0 → hostRead W 4 addr s = .refused (.misaligned addr) ∧
      hostWrite W 4 addr v s = .refused (.misaligned addr)) ∧
    (addr % 4 = 0 → 0x100 + 32 * Config.limbs W ≤ addr → hostRead W 4 addr s = .refused (.outsideWindow addr) ∧
      hostWrite W 4 addr v s = .refused (.outsideWindow addr)) ∧
    (addr % 4 = 0 → addr < 0x100 + 32 * Config.limbs W →
      (∃ t, hostRead W 4 addr s = .next t) ∧ ∃ t, hostWrite W 4 addr v s = .next t)

/-- 20_memory.md R33, R34: a written limb reads back, cut to the bits it has, and no other limb of any register changes. -/
def Obligations.LimbReadsBack : Prop :=
  ∀ (W : Nat) (v : Word) (s t : State) (r : Reg) (j : Nat), j < Config.limbs W →
    s.status.busy = false →
    hostWrite W 4 (0x100 + 4 * (r.val * Config.limbs W + j)) v s = .next t →
    (∃ u : Word, hostRead W 4 (0x100 + 4 * (r.val * Config.limbs W + j)) t =
      .next { t with reads := t.reads ++ [u] } ∧ u.toNat = v.toNat % 2 ^ min 32 (W - 32 * j)) ∧
    (∀ q k, k < Config.limbs W → (q ≠ r ∨ k ≠ j) → slotValue W t (.limb q k) = slotValue W s (.limb q k))

/-- 20_memory.md R33: the limbs of a register, and the register as the sum of its limbs, with the rule's example. -/
def Obligations.RegisterIsSumOfLimbs : Prop :=
  (∀ (W : Nat) (s : State) (r : Reg), readReg s r < 2 ^ W →
    (∀ j, j < Config.limbs W → (readLimb W s r j).toNat = readReg s r / 2 ^ (32 * j) % 2 ^ 32) ∧
    readReg s r = ((List.range (Config.limbs W)).map fun j => (readLimb W s r j).toNat * 2 ^ (32 * j)).sum ∧
    assembleLimbs ((List.range (Config.limbs W)).map (readLimb W s r)) = readReg s r) ∧
  (∀ s : State, readReg s 1 = 0x0000000100000002 → s.status.busy = false → regDefined s 1 = true →
    hostRead 64 4 0x108 s = .next { s with reads := s.reads ++ [0x00000002] } ∧
    hostRead 64 4 0x10C s = .next { s with reads := s.reads ++ [0x00000001] })

/-- 20_memory.md R34: above bit `W - 1` the top limb reads 0 and ignores what is written. -/
def Obligations.TopLimbIsCut : Prop :=
  ∀ (W : Nat) (s : State) (r : Reg), 2 ≤ W →
    (∀ k, (W - 1) % 32 < k → (readLimb W s r (Config.limbs W - 1)).getLsbD k = false) ∧
    (∀ u v : Word, u.toNat % 2 ^ ((W - 1) % 32 + 1) = v.toNat % 2 ^ ((W - 1) % 32 + 1) →
      writeLimb W s r (Config.limbs W - 1) u = writeLimb W s r (Config.limbs W - 1) v)

/-- 20_memory.md R35: on a byte-addressed bus a word is little-endian, and a register is one little-endian integer of `4L`
bytes. -/
def Obligations.WindowIsLittleEndian : Prop :=
  (∀ (v : Word) (k : Nat), k ≤ 3 → (wordByte v k).toNat = v.toNat / 2 ^ (8 * k) % 2 ^ 8) ∧
  (∀ (W : Nat) (s : State) (r : Reg) (k : Nat), readReg s r < 2 ^ W →
    regDefined s r = true → s.status.busy = false → k < 4 * Config.limbs W →
    ∃ b : BitVec 8, windowByte W s (0x100 + 4 * r.val * Config.limbs W + k) = some b ∧
      b.toNat = readReg s r / 2 ^ (8 * k) % 2 ^ 8)

/-- 20_memory.md R40: `WR xi, v` takes `L` accesses, after which `x[i] = v` and the register is defined; `RD xi` takes `L`
accesses, whose values assemble to `x[i]`. The turns stand on the model's agenda [log 7, log 14]. -/
def Obligations.RegisterDirectives : Prop :=
  ∀ (s : State) (r : Reg) (rest : List Event), Inv Config.width s → s.status.busy = false →
    (∀ v, v < 2 ^ Config.width → s.agenda = directiveTurns Config.width (.wr r v) ++ rest →
      ∃ t, Sys2Proof.core.run (Config.limbs Config.width) s = .next t ∧
        readReg t r = v ∧ regDefined t r = true ∧ t.agenda = rest ∧ t.status = s.status ∧ t.reads = s.reads ∧
        (∀ q, q ≠ r → readReg t q = readReg s q ∧ undefLimbs t q = undefLimbs s q)) ∧
    (regDefined s r = true → s.agenda = directiveTurns Config.width (.rd r) ++ rest →
      ∃ vs, Sys2Proof.core.run (Config.limbs Config.width) s =
          .next { s with agenda := rest, reads := s.reads ++ vs } ∧
        assembleLimbs vs = readReg s r)

/-- 30_encoding.md R60, 70_reset_and_hazards.md R139: `WAIT` repeats the read of STATUS until its bit 0 is 0, whatever turns the
other agents take between; a command that waits for nothing is found completed at the second read, and a PTEST that lacks a
draw is polled for ever. The turns stand on the model's agenda [log 7, log 14], the draws are [log 8]. -/
def Obligations.WaitPollsUntilIdle : Prop :=
  (∀ (W : Nat) (s : State) (between : List (List OtherTurn)) (rest : List Event),
    s.agenda = directiveTurns W (.wait between) ++ rest →
    (s.status.busy = false → stepAt W s =
      .next { s with agenda := between.flatten.map eventOf ++ rest, reads := s.reads ++ [statusWord s.status] }) ∧
    (s.status.busy = true → ∀ group later, between = group :: later → stepAt W s =
      .next { s with
        agenda := group.map eventOf ++ directiveTurns W (.wait later) ++ rest
        reads := s.reads ++ [statusWord s.status] }) ∧
    (s.status.busy = true → between = [] → stepAt W s =
      .next { s with
        agenda := .engine :: directiveTurns W (.wait []) ++ rest
        reads := s.reads ++ [statusWord s.status] })) ∧
  (∀ (s : State) (rest : List Event), Inv Config.width s → s.status.busy = true →
    s.agenda = directiveTurns Config.width (.wait []) ++ rest →
    (awaitsAnswer s = false →
      ∃ t, Sys2Proof.core.run 3 s = .next t ∧ t.status.busy = false ∧ t.status.done = true ∧ t.agenda = rest ∧
        t.reads = s.reads ++ [1, statusWord t.status]) ∧
    (awaitsAnswer s = true → Sys2Proof.core.run 2 s = .next { s with reads := s.reads ++ [1] }))

/-- 70_reset_and_hazards.md R139, 20_memory.md R39, R43: while `BUSY = 1` no access of the host but a reset changes a
register, a mark, STATUS or `PEND`, and STATUS reads exactly 1. -/
def Obligations.BusyEngineIsUndisturbed : Prop :=
  ∀ (W : Nat) (a : HostAction) (s t : State), Inv W s → s.status.busy = true → hostAct W a s = .next t →
    ((t.x = s.x ∧ t.undef = s.undef ∧ t.status = s.status ∧ t.pend = s.pend ∧ t.answers = s.answers ∧
        t.draws = s.draws) ∨
      a = .hardReset ∨ ∃ v : Word, v.getLsbD 0 = true ∧ a = .write 4 0x008 v) ∧
    hostRead W 4 0x004 s = .next { s with reads := s.reads ++ [1] }

/-! Resets. -/

/-- 10_state.md R24: the state right after hard reset, where the spec gives a value: STATUS 0, `PEND` empty, every limb of
every register undefined. -/
def Obligations.ResetValues : Prop :=
  State.reset.status = { busy := false, done := false, v := false, err := .noError } ∧
  statusWord State.reset.status = 0 ∧ State.reset.pend = none ∧
  ∀ (r : Reg) (j : Nat), j < Config.limbs Config.width → limbDefined State.reset r j = false

/-- The model's invariant (`Inv` of Safety.lean, whose clause on answers rests on [log 8] and at reset on [log 2]) holds at
reset. -/
def Obligations.ResetMeetsInvariant : Prop := Inv Config.width State.reset

/-- 70_reset_and_hazards.md R135: hard reset from any state. The registers become "unspecified": in the model a free value
each, cut to `W` bits and taken anew at each reset [log 5]; the number of the draw moves on [log 8]; the host's record and the
turns to come stay [log 17]. -/
def Obligations.HardResetEffect : Prop :=
  ∀ (W : Nat) (s : State),
    (hardReset W s).status = { busy := false, done := false, v := false, err := .noError } ∧
    (hardReset W s).pend = none ∧ (hardReset W s).answers = [] ∧ (hardReset W s).draws = s.draws + 1 ∧
    (∀ (r : Reg) (j : Nat), j < Config.limbs W → limbDefined (hardReset W s) r j = false) ∧
    (∀ r : Reg, readReg (hardReset W s) r = Config.freeOperand (s.fresh + r.val) % 2 ^ W) ∧
    (hardReset W s).fresh = s.fresh + 8 ∧
    (hardReset W s).agenda = s.agenda ∧ (hardReset W s).reads = s.reads ∧ Inv W (hardReset W s) ∧
    hostAct W .hardReset s = .next (hardReset W s)

/-- 70_reset_and_hazards.md R136: soft reset, in IDLE and in BUSY: registers and marks stay, but for the destination of an
aborted MODMUL, MODEXP or MODINV, which becomes a free value [log 5]; the engine is then IDLE, accepts a command at once
and discards a late answer; the number of the draw moves on [log 8]. -/
def Obligations.SoftResetEffect : Prop :=
  ∀ (W : Nat) (v : Word) (s : State), v.getLsbD 0 = true →
    ∃ t, hostWrite W 4 0x008 v s = .next t ∧
      t.status = { busy := false, done := false, v := false, err := .noError } ∧ t.pend = none ∧ t.answers = [] ∧
      t.draws = s.draws + 1 ∧ t.agenda = s.agenda ∧ t.reads = s.reads ∧
      (∀ r : Reg,
        (s.status.busy = true ∧ ∃ w, s.pend = some w ∧
          ((∃ ra rb rn, decode w = .ok (.modmul r ra rb rn)) ∨ (∃ ra rb rn, decode w = .ok (.modexp r ra rb rn)) ∨
            (∃ ra rn, decode w = .ok (.modinv r ra rn))) ∧
          (∀ j, j < Config.limbs W → limbDefined t r j = false) ∧
          readReg t r = Config.freeOperand s.fresh % 2 ^ W ∧ t.fresh = s.fresh + 1) ∨
        ((∀ w, s.status.busy = true → s.pend = some w →
          ∀ i, decode w = .ok i → destination i ≠ some r) ∧
          readReg t r = readReg s r ∧ undefLimbs t r = undefLimbs s r)) ∧
      (∀ w, hostWrite W 4 0x000 w t =
        .next { t with pend := some w, status := { busy := true, done := false, v := false, err := .noError } }) ∧
      (∀ d a, rngAnswer W d a t = t)

/-! Whole-machine rules. -/

/-- 10_state.md R11, R14, R15, R18, 60_exceptions.md R128: every step keeps the model's invariant (`Inv` of
Safety.lean, whose clauses on answers rest on [log 8]), for every operand width. -/
def Obligations.StepKeepsInvariant : Prop :=
  (∀ (W : Nat) (s t : State), Inv W s → stepAt W s = .next t → Inv W t) ∧
  (∀ s t : State, Inv Config.width s → step s = .next t → Inv Config.width t)

/-- 10_state.md R21, 20_memory.md R32, R46: from a state that meets the invariant no step faults, and one is refused only where
the host's access is not an aligned 32-bit one inside the window [log 11, log 12]. That a command which reads an undefined
register does not fault either is the model's choice: the step goes on as R21 says of the hardware, where R21 advises a model
to fault [log 3]. -/
def Obligations.OnlyMisplacedAccessesStop : Prop :=
  ∀ (W : Nat) (s : State), Inv W s →
    (∀ f, stepAt W s ≠ .fault f) ∧
    (∀ e, stepAt W s = .refused e → ∃ size addr rest,
      (s.agenda = .host (.read size addr) :: rest ∨ ∃ v, s.agenda = .host (.write size addr v) :: rest) ∧
      (size ≠ 4 ∨ addr % 4 ≠ 0 ∨ 0x100 + 32 * Config.limbs W ≤ addr))

/-- 60_exceptions.md R131, R119, 20_memory.md R32, R46: from a state that meets the invariant a strict step [log 3] faults only
where the pending command reads a register that is not defined, and is refused only where the host's access is not an aligned
32-bit one inside the window [log 11, log 12]. -/
def Obligations.OnlyUndefinedSourcesAndMisplacedAccessesStop : Prop :=
  ∀ (W : Nat) (s : State), Inv W s →
    (∀ f, strictStepAt W s = .fault f → ∃ r w i, f = .undefinedSource r ∧ s.status.busy = true ∧ s.pend = some w ∧
      decode w = .ok i ∧ r ∈ sources i ∧ regDefined s r = false ∧
      (s.agenda = [] ∨ ∃ rest, s.agenda = .engine :: rest)) ∧
    (∀ e, strictStepAt W s = .refused e → ∃ size addr rest,
      (s.agenda = .host (.read size addr) :: rest ∨ ∃ v, s.agenda = .host (.write size addr v) :: rest) ∧
      (size ≠ 4 ∨ addr % 4 ≠ 0 ∨ 0x100 + 32 * Config.limbs W ≤ addr))

/-- 70_reset_and_hazards.md R147: a run that has ended stays ended, and its result stays, whatever turns of the engine and of the
random-number environment are left; a state with `BUSY = 1` is never final, and with nothing else to come the owed completion
step is the next one. The agenda is the model's [log 7]. -/
def Obligations.FinishedRunsStayFinished : Prop :=
  (∀ (k : Nat) (s : State), Finished s →
    ∃ t, Sys2Proof.core.run k s = .next t ∧ Finished t ∧ runResult t = runResult s) ∧
  (∀ s : State, s.status.busy = true → ¬ Finished s ∧ (s.agenda = [] → step s = completionStep s)) ∧
  (∀ s : State, s.status.busy = false → (Finished s ↔
    (∀ a, .host a ∉ s.agenda) ∧ ∀ between, .poll between ∉ s.agenda))

/-- 60_exceptions.md R120: an error code stays until an accepted `CMD` write, a soft reset or a hard reset clears it, and
nothing else changes it. -/
def Obligations.ErrorStaysUntilCleared : Prop :=
  ∀ (W : Nat) (s t : State), Inv W s → s.status.err ≠ .noError → stepAt W s = .next t →
    t.status.err ≠ s.status.err →
    t.status.err = .noError ∧ ∃ rest,
      (∃ v, s.agenda = .host (.write 4 0x000 v) :: rest) ∨
      (∃ v : Word, v.getLsbD 0 = true ∧ s.agenda = .host (.write 4 0x008 v) :: rest) ∨
      s.agenda = .host .hardReset :: rest

/-- 70_reset_and_hazards.md R144, R136, 10_state.md R26: a register changes only by a host write of one of its limbs in
IDLE, as the destination of the command that completes, as the destination of one that a soft reset aborts,
or by a hard reset. -/
def Obligations.RegisterChangesOnlyBy : Prop :=
  ∀ (W : Nat) (s t : State) (r : Reg), stepAt W s = .next t →
    (readReg t r ≠ readReg s r ∨ undefLimbs t r ≠ undefLimbs s r) →
    (∃ v j rest, s.status.busy = false ∧ j < Config.limbs W ∧
      s.agenda = .host (.write 4 (0x100 + 4 * (r.val * Config.limbs W + j)) v) :: rest) ∨
    (s.status.busy = true ∧ ∃ w i, s.pend = some w ∧ decode w = .ok i ∧ destination i = some r ∧
      (s.agenda = [] ∨ (∃ rest, s.agenda = .engine :: rest) ∨
        ∃ (v : Word) (rest : List Event), v.getLsbD 0 = true ∧ s.agenda = .host (.write 4 0x008 v) :: rest)) ∨
    ∃ rest, s.agenda = .host .hardReset :: rest

/-- 70_reset_and_hazards.md R143: every accepted word that is not PTEST's completes at the engine's turn, whatever its source
registers hold and whether or not anything has written them [log 3]; PTEST does once the port has answered each of its
rounds; while an answer is missing it stays BUSY through every step that is not a reset. How the answers arrive is the model's [log 8]. -/
def Obligations.AcceptedCommandsComplete : Prop :=
  (∀ (W : Nat) (s : State) (w : Word), Inv W s → s.pend = some w →
    ((∀ rn rounds, decode w ≠ .ok (.ptest rn rounds)) ∨
      (∃ rn rounds, decode w = .ok (.ptest rn rounds) ∧ rounds ≤ s.answers.length)) →
    ∃ t, engineTurn s = .next t ∧ t.status.busy = false ∧ t.status.done = true ∧ t.pend = none) ∧
  (∀ (W : Nat) (s t : State), awaitsAnswer s = true → stepAt W s = .next t →
    t.status.busy = true ∨ (∃ rest, s.agenda = .host .hardReset :: rest) ∨
      ∃ (v : Word) (rest : List Event), v.getLsbD 0 = true ∧ s.agenda = .host (.write 4 0x008 v) :: rest)

/-- 60_exceptions.md R128, 42_primality.md R84: when the engine asks for a witness, with the bounds 2 and `n - 1`, and what an
arriving answer does: it is kept, any `W`-bit value, when it answers the draw that a PTEST waits for, and discarded otherwise.
The number of the draw is the model's [log 8]. -/
def Obligations.AnswersWhileRequested : Prop :=
  ∀ (W d r : Nat) (s : State),
    (∀ lo hi : Nat, rngRequest s = some { lo := lo, hi := hi } ↔ s.status.busy = true ∧ ∃ w rn rounds, s.pend = some w ∧
      decode w = .ok (.ptest rn rounds) ∧ 3 ≤ readReg s rn ∧ s.answers.length < rounds ∧
      (∀ a ∈ s.answers, GoodAnswer (readReg s rn) a) ∧ lo = 2 ∧ hi = readReg s rn - 1) ∧
    (∀ q, rngRequest s = some q → q.lo ≤ q.hi) ∧
    ((∃ q, rngRequest s = some q) → d = s.draws →
      rngAnswer W d r s = { s with answers := s.answers ++ [r % 2 ^ W], draws := s.draws + 1 }) ∧
    ((rngRequest s = none ∨ d ≠ s.draws) → rngAnswer W d r s = s)

/-- 70_reset_and_hazards.md R136, R135: a draw that stands at a reset is withdrawn, and an answer to it is discarded however
late it arrives, whatever has run since and whichever PTEST then waits: no step goes back to a number, and only the draw that
stands is answered. The numbers of the draws are the model's [log 8]. -/
def Obligations.LateAnswersAreDiscarded : Prop :=
  (∀ (W d r : Nat) (s : State), d ≠ s.draws → rngAnswer W d r s = s) ∧
  (∀ (W : Nat) (s t : State), stepAt W s = .next t → s.draws ≤ t.draws) ∧
  (∀ (s t u : State) (rest : List Event) (k d r : Nat),
    (s.agenda = .host .hardReset :: rest ∨
      ∃ v : Word, v.getLsbD 0 = true ∧ s.agenda = .host (.write 4 0x008 v) :: rest) →
    step s = .next t → Sys2Proof.core.run k t = .next u → d ≤ s.draws →
    rngAnswer Config.width d r u = u ∧ step { u with agenda := .rng d r :: u.agenda } = .next u)
end

