-- ==== Sys2Proof/Laws/Arith.lean ====
section
/-! SUPPORT. What each number-theoretic function computes, as mathematics: one lemma a loop, one a function. -/

namespace Sys2Proof.Machine

theorem lt_two_pow_bitLength (v : Nat) : v < 2 ^ bitLength v := by
  unfold bitLength
  split
  · simp_all
  · exact Nat.lt_log2_self

/-- The loop of square-and-multiply keeps `r * s ^ k` modulo `n`. -/
theorem squareMultiply_eq (n : Nat) : ∀ (fuel r s k : Nat), k < 2 ^ fuel → r < n →
    squareMultiply n fuel r s k = r * s ^ k % n
  | 0, r, s, k, hk, hr => by
    obtain rfl : k = 0 := by simpa using hk
    simp [squareMultiply, Nat.mod_eq_of_lt hr]
  | fuel + 1, r, s, k, hk, hr => by
    have hn : 0 < n := by omega
    unfold squareMultiply
    split
    · simp_all [Nat.mod_eq_of_lt hr]
    · rename_i hk0
      have hlt : k / 2 < 2 ^ fuel := by
        rw [Nat.pow_succ] at hk; omega
      split
      · rename_i hodd
        rw [squareMultiply_eq n fuel _ _ _ hlt (Nat.mod_lt _ hn)]
        conv_rhs => rw [show k = 2 * (k / 2) + 1 by omega, pow_succ, pow_mul, pow_two]
        have h1 : r * s % n ≡ r * s [MOD n] := Nat.mod_modEq _ _
        have h2 : (s * s % n) ^ (k / 2) ≡ (s * s) ^ (k / 2) [MOD n] := (Nat.mod_modEq _ _).pow _
        refine (h1.mul h2).trans ?_
        rw [show r * s * (s * s) ^ (k / 2) = r * ((s * s) ^ (k / 2) * s) by ring]
      · rename_i heven
        rw [squareMultiply_eq n fuel _ _ _ hlt hr]
        conv_rhs => rw [show k = 2 * (k / 2) by omega, pow_mul, pow_two]
        have h2 : (s * s % n) ^ (k / 2) ≡ (s * s) ^ (k / 2) [MOD n] := (Nat.mod_modEq _ _).pow _
        exact h2.mul_left r

/-- `powMod` is the power of 40_modmul_modexp.md R67. -/
theorem powMod_eq (b e n : Nat) (hn : 0 < n) : powMod b e n = b ^ e % n := by
  unfold powMod
  by_cases h1 : n = 1
  · subst h1
    have : ∀ fuel r s k, r < 1 → squareMultiply 1 fuel r s k = 0 := by
      intro fuel
      induction fuel with
      | zero => intro r s k hr; simp [squareMultiply]; omega
      | succ f ih =>
        intro r s k hr
        unfold squareMultiply
        split
        · omega
        · exact ih _ _ _ (by split <;> omega)
    simp [this, Nat.mod_one]
  · rw [squareMultiply_eq n _ _ _ _ (lt_two_pow_bitLength e) (Nat.mod_lt _ hn),
      Nat.mod_eq_of_lt (by omega : 1 < n), one_mul, ← Nat.pow_mod]

/-- The loop of the extended Euclidean algorithm: it ends with the gcd of the two remainders it starts with, and its
coefficient times `a` is that gcd modulo `b`, when both pairs it starts with are so related. -/
theorem euclidLoop_spec (a b : Nat) (hb : 0 < b) : ∀ (fuel r0 r1 t0 t1 : Nat), r1 ≤ fuel → t0 < b → t1 < b →
    t0 * a ≡ r0 [MOD b] → t1 * a ≡ r1 [MOD b] →
    (euclidLoop b fuel r0 r1 t0 t1).1 = Nat.gcd r0 r1 ∧ (euclidLoop b fuel r0 r1 t0 t1).2 < b ∧
      (euclidLoop b fuel r0 r1 t0 t1).2 * a ≡ Nat.gcd r0 r1 [MOD b]
  | 0, r0, r1, t0, t1, hr, h0, h1, e0, e1 => by
    obtain rfl : r1 = 0 := by omega
    simp [euclidLoop, h0, e0]
  | fuel + 1, r0, r1, t0, t1, hr, h0, h1, e0, e1 => by
    unfold euclidLoop
    split
    · subst r1
      simp [h0, e0]
    · rename_i hr1
      have hmod : r0 - r0 / r1 * r1 = r0 % r1 := by
        have := Nat.div_add_mod r0 r1
        rw [Nat.mul_comm] at this; omega
      rw [hmod]
      have hlt : r0 % r1 < r1 := Nat.mod_lt _ (by omega)
      have e2 : (t0 + (b - r0 / r1 * t1 % b)) % b * a ≡ r0 % r1 [MOD b] := by
        refine ((Nat.mod_modEq _ b).mul_right a).trans ?_
        have hq : r0 / r1 * t1 % b < b := Nat.mod_lt _ hb
        refine Nat.ModEq.add_right_cancel' (r0 / r1 * r1) ?_
        have hsum : r0 % r1 + r0 / r1 * r1 = r0 := by
          rw [Nat.mul_comm]; exact Nat.mod_add_div r0 r1
        rw [hsum]
        have h3 : r0 / r1 * r1 ≡ (r0 / r1 * t1 % b) * a [MOD b] := by
          have : r0 / r1 * (t1 * a) ≡ r0 / r1 * r1 [MOD b] := e1.mul_left _
          refine this.symm.trans ?_
          rw [← Nat.mul_assoc]
          exact ((Nat.mod_modEq _ b).mul_right a).symm
        refine (Nat.ModEq.add_left _ h3).trans ?_
        rw [← Nat.add_mul, Nat.add_assoc, Nat.sub_add_cancel hq.le, Nat.add_mul]
        have : t0 * a + b * a ≡ t0 * a [MOD b] := by
          simp [Nat.ModEq, Nat.add_mul_mod_self_left]
        exact this.trans e0
      have := euclidLoop_spec a b hb fuel r1 (r0 % r1) t1 _ (by omega) h1 (Nat.mod_lt _ hb) e1 e2
      rwa [Nat.gcd_comm r1, ← Nat.gcd_rec, Nat.gcd_comm r1 r0] at this

/-- The extended Euclidean algorithm of 41_modinv.md R76 gives the gcd and a reduced coefficient of `a`. -/
theorem extendedEuclid_spec (a b : Nat) (hb : 0 < b) :
    (extendedEuclid a b).1 = Nat.gcd a b ∧ (extendedEuclid a b).2 < b ∧
      (extendedEuclid a b).2 * a ≡ Nat.gcd a b [MOD b] := by
  have h := euclidLoop_spec a b hb b b (a % b) 0 (1 % b) (Nat.mod_lt _ hb).le hb (Nat.mod_lt _ hb)
    (by simp [Nat.ModEq]) (((Nat.mod_modEq 1 b).mul_right a).trans (by simp [Nat.ModEq]))
  rwa [Nat.gcd_comm b, ← Nat.gcd_rec, Nat.gcd_comm b a] at h

/-- Halving as long as the number is even leaves an odd number. -/
theorem splitTwos_spec : ∀ (fuel m : Nat), 0 < m → m < 2 ^ fuel →
    m = 2 ^ (splitTwos fuel m).1 * (splitTwos fuel m).2 ∧ (splitTwos fuel m).2 % 2 = 1
  | 0, m, h0, h => by simp at h; omega
  | fuel + 1, m, h0, h => by
    unfold splitTwos
    split
    · have hlt : m / 2 < 2 ^ fuel := by rw [Nat.pow_succ] at h; omega
      obtain ⟨h1, h2⟩ := splitTwos_spec fuel (m / 2) (by omega) hlt
      refine ⟨?_, h2⟩
      simp only [Nat.pow_succ]
      rw [Nat.mul_comm (2 ^ _) 2, Nat.mul_assoc, ← h1]; omega
    · simp; omega

/-- The decomposition of 42_primality.md R81. -/
theorem decompose_spec (n : Nat) (hn : 2 ≤ n) :
    n - 1 = 2 ^ (decompose n).1 * (decompose n).2 ∧ (decompose n).2 % 2 = 1 :=
  splitTwos_spec _ _ (by omega) (lt_two_pow_bitLength _)

/-- A decomposition into a power of two and an odd number is unique. -/
theorem twoPow_mul_odd_unique {s t s' t' : Nat} (ht : t % 2 = 1) (ht' : t' % 2 = 1)
    (h : 2 ^ s * t = 2 ^ s' * t') : s = s' ∧ t = t' := by
  induction s generalizing s' with
  | zero =>
    cases s' with
    | zero => simpa using h
    | succ s' => rw [Nat.pow_succ] at h; simp at h; rw [h, Nat.mul_right_comm] at ht; omega
  | succ s ih =>
    cases s' with
    | zero =>
      rw [Nat.pow_succ] at h; simp at h; rw [← h, Nat.mul_right_comm] at ht'; omega
    | succ s' =>
      have : 2 ^ s * t = 2 ^ s' * t' := by
        rw [Nat.pow_succ, Nat.pow_succ] at h
        have h2 : 2 * (2 ^ s * t) = 2 * (2 ^ s' * t') := by
          calc 2 * (2 ^ s * t) = 2 ^ s * 2 * t := by ring
            _ = 2 ^ s' * 2 * t' := h
            _ = 2 * (2 ^ s' * t') := by ring
        omega
      obtain ⟨h1, h2⟩ := ih this
      exact ⟨by omega, h2⟩

/-- The decomposition is the one of 42_primality.md R81, whoever gives it. -/
theorem decompose_eq {n s t : Nat} (hn : 2 ≤ n) (h : n - 1 = 2 ^ s * t) (ht : t % 2 = 1) : decompose n = (s, t) := by
  obtain ⟨h1, h2⟩ := decompose_spec n hn
  obtain ⟨h3, h4⟩ := twoPow_mul_odd_unique h2 ht (h1.symm.trans h)
  exact Prod.ext h3 h4

/-- The squaring loop reaches `n - 1` exactly when one of its squares is. -/
theorem squaringsReach_iff (n : Nat) : ∀ (k x : Nat),
    squaringsReach n k x = true ↔ ∃ j, 1 ≤ j ∧ j ≤ k ∧ x ^ 2 ^ j % n = n - 1
  | 0, x => by
    simp only [squaringsReach]
    constructor
    · intro h; cases h
    · rintro ⟨j, h1, h2, _⟩; omega
  | k + 1, x => by
    unfold squaringsReach
    have hpow : ∀ j, (x * x % n) ^ 2 ^ j % n = x ^ 2 ^ (j + 1) % n := by
      intro j
      rw [← Nat.pow_mod, ← pow_two, ← pow_mul, Nat.pow_succ']
    split
    · rename_i h
      refine ⟨fun _ => ⟨1, le_rfl, by omega, by simpa [pow_two] using h⟩, fun _ => rfl⟩
    · rename_i h
      rw [squaringsReach_iff n k]
      constructor
      · rintro ⟨j, h1, h2, h3⟩
        exact ⟨j + 1, by omega, by omega, by rw [← hpow]; exact h3⟩
      · rintro ⟨j, h1, h2, h3⟩
        obtain rfl | ⟨i, rfl⟩ : j = 1 ∨ ∃ i, j = i + 1 + 1 := by
          rcases j with _ | _ | j
          · omega
          · exact .inl rfl
          · exact .inr ⟨j, rfl⟩
        · exact absurd (by simpa [pow_two] using h3) h
        · exact ⟨i + 1, by omega, by omega, by rw [hpow]; exact h3⟩

/-- The witness function of 42_primality.md R82, as mathematics. -/
theorem witnessPasses_iff (n a : Nat) (hn : 2 ≤ n) :
    witnessPasses n a = true ↔
      a ^ (decompose n).2 % n = 1 ∨ a ^ (decompose n).2 % n = n - 1 ∨
        ∃ j, 1 ≤ j ∧ j ≤ (decompose n).1 - 1 ∧ a ^ ((decompose n).2 * 2 ^ j) % n = n - 1 := by
  have hpow : ∀ j, (a ^ (decompose n).2 % n) ^ 2 ^ j % n = a ^ ((decompose n).2 * 2 ^ j) % n := by
    intro j; rw [← Nat.pow_mod, ← pow_mul]
  unfold witnessPasses
  rw [powMod_eq _ _ _ (by omega)]
  split
  · rename_i h
    refine ⟨fun _ => ?_, fun _ => rfl⟩
    rcases h with h | h
    · exact .inl h
    · exact .inr (.inl h)
  · rename_i h
    rw [squaringsReach_iff]
    simp only [hpow]
    constructor
    · exact fun h' => .inr (.inr h')
    · rintro (h' | h' | h')
      · exact absurd (.inl h') h
      · exact absurd (.inr h') h
      · exact h'

/-- A candidate passes trial division when no entry of the table divides it. -/
theorem passesTrialDivision_iff (c : Nat) : passesTrialDivision c = true ↔ ∀ p ∈ smallPrimes, ¬ p ∣ c := by
  simp only [passesTrialDivision, List.all_eq_true, bne_iff_ne, ne_eq, Nat.dvd_iff_mod_eq_zero]

/-- A witness PTEST goes on from: in range, and it does not prove `n` composite. -/
def goodWitness (n a : Nat) : Prop := 2 ≤ a ∧ a ≤ n - 1 ∧ witnessPasses n a = true

/-- Witnesses that pass leave the rest of the rounds to the rest of the answers. -/
theorem ptestRounds_append (n : Nat) (pre rest : List Nat) (k : Nat) (h : ∀ a ∈ pre, goodWitness n a) :
    ptestRounds n (pre.length + k) (pre ++ rest) = ptestRounds n k rest := by
  induction pre with
  | nil => simp
  | cons a pre ih =>
    obtain ⟨h1, h2, h3⟩ := h a (by simp)
    rw [List.length_cons, show pre.length + 1 + k = pre.length + k + 1 by omega, List.cons_append, ptestRounds,
      if_neg (by omega), if_pos h3]
    exact ih fun b hb => h b (by simp [hb])

end Sys2Proof.Machine
end

