-- ==== Sys2Proof/Laws/Decode.lean ====
section
/-! SUPPORT. The masks of 30_encoding.md R55 in terms of the fields of R51, and the fields of a word of format C. -/

namespace Sys2Proof

/-- A masked comparison, bit by bit. -/
theorem masked_iff (w m p : Word) :
    w &&& m = p ↔ ∀ i, i < 32 → (w.getLsbD i && m.getLsbD i) = p.getLsbD i := by
  constructor
  · rintro rfl i _
    simp
  · intro h
    apply BitVec.eq_of_getLsbD_eq
    intro i hi
    simpa using h i hi

/-- A field's value, bit by bit. -/
theorem extract_iff (w : Word) (lo n k : Nat) :
    (w.extractLsb' lo n).toNat = k ↔ k < 2 ^ n ∧ ∀ i, i < n → w.getLsbD (lo + i) = k.testBit i := by
  constructor
  · rintro rfl
    exact ⟨BitVec.isLt _, fun i hi => by simp [BitVec.getLsbD, hi]⟩
  · rintro ⟨hk, h⟩
    apply Nat.eq_of_testBit_eq
    intro i
    by_cases hi : i < n
    · have := h i hi
      simp_all [BitVec.getLsbD]
    · have : k.testBit i = false :=
        Nat.testBit_lt_two_pow (lt_of_lt_of_le hk (Nat.pow_le_pow_right (by omega) (by omega)))
      simp [this, hi]

theorem fieldRd_eq_zero (w : Word) : fieldRd w = 0 ↔ (w.extractLsb' 25 3).toNat = 0 := Fin.ext_iff

theorem fieldRa_eq_zero (w : Word) : fieldRa w = 0 ↔ (w.extractLsb' 22 3).toNat = 0 := Fin.ext_iff

theorem fieldRb_eq_zero (w : Word) : fieldRb w = 0 ↔ (w.extractLsb' 19 3).toNat = 0 := Fin.ext_iff

theorem fits_modmul (w : Word) : fits w 0xF000FFFF 0x10000000 = true ↔ fieldOp w = 1 ∧ fieldImm w = 0 := by
  simp only [fits, beq_iff_eq, fieldOp, fieldImm, masked_iff, extract_iff, Nat.forall_lt_succ_right, Nat.not_lt_zero,
    false_imp_iff, forall_const]
  simp (decide := true)
  tauto

theorem fits_modexp (w : Word) : fits w 0xF000FFFF 0x20000000 = true ↔ fieldOp w = 2 ∧ fieldImm w = 0 := by
  simp only [fits, beq_iff_eq, fieldOp, fieldImm, masked_iff, extract_iff, Nat.forall_lt_succ_right, Nat.not_lt_zero,
    false_imp_iff, forall_const]
  simp (decide := true)
  tauto

theorem fits_modinv (w : Word) :
    fits w 0xF038FFFF 0x30000000 = true ↔ fieldOp w = 3 ∧ fieldRb w = 0 ∧ fieldImm w = 0 := by
  simp only [fits, beq_iff_eq, fieldOp, fieldImm, fieldRb_eq_zero, masked_iff, extract_iff, Nat.forall_lt_succ_right,
    Nat.not_lt_zero, false_imp_iff, forall_const]
  simp (decide := true)
  tauto

theorem fits_tdiv (w : Word) :
    fits w 0xFFF8FFFF 0x40000000 = true ↔
      fieldOp w = 4 ∧ fieldRd w = 0 ∧ fieldRa w = 0 ∧ fieldRb w = 0 ∧ fieldImm w = 0 := by
  simp only [fits, beq_iff_eq, fieldOp, fieldImm, fieldRd_eq_zero, fieldRa_eq_zero, fieldRb_eq_zero, masked_iff,
    extract_iff, Nat.forall_lt_succ_right, Nat.not_lt_zero, false_imp_iff, forall_const]
  simp (decide := true)
  tauto

theorem fits_mrround (w : Word) :
    fits w 0xFE38FFFF 0x50000000 = true ↔ fieldOp w = 5 ∧ fieldRd w = 0 ∧ fieldRb w = 0 ∧ fieldImm w = 0 := by
  simp only [fits, beq_iff_eq, fieldOp, fieldImm, fieldRd_eq_zero, fieldRb_eq_zero, masked_iff,
    extract_iff, Nat.forall_lt_succ_right, Nat.not_lt_zero, false_imp_iff, forall_const]
  simp (decide := true)
  tauto

theorem fits_ptest (w : Word) :
    fits w 0xFFF80000 0x60000000 = true ↔ fieldOp w = 6 ∧ fieldRd w = 0 ∧ fieldRa w = 0 ∧ fieldRb w = 0 := by
  simp only [fits, beq_iff_eq, fieldOp, fieldRd_eq_zero, fieldRa_eq_zero, fieldRb_eq_zero, masked_iff,
    extract_iff, Nat.forall_lt_succ_right, Nat.not_lt_zero, false_imp_iff, forall_const]
  simp (decide := true)
  tauto

/-- What a word decodes to, in terms of its fields: a command when the fields that it does not use are 0, else why it is
illegal (30_encoding.md R52, R56). -/
theorem decode_cases (w : Word) :
    (fieldOp w = 1 ∧ fieldImm w = 0 ∧
      decode w = .ok (.modmul (fieldRd w) (fieldRa w) (fieldRb w) (fieldRn w))) ∨
    (fieldOp w = 2 ∧ fieldImm w = 0 ∧
      decode w = .ok (.modexp (fieldRd w) (fieldRa w) (fieldRb w) (fieldRn w))) ∨
    (fieldOp w = 3 ∧ fieldRb w = 0 ∧ fieldImm w = 0 ∧
      decode w = .ok (.modinv (fieldRd w) (fieldRa w) (fieldRn w))) ∨
    (fieldOp w = 4 ∧ fieldRd w = 0 ∧ fieldRa w = 0 ∧ fieldRb w = 0 ∧ fieldImm w = 0 ∧
      decode w = .ok (.tdiv (fieldRn w))) ∨
    (fieldOp w = 5 ∧ fieldRd w = 0 ∧ fieldRb w = 0 ∧ fieldImm w = 0 ∧
      decode w = .ok (.mrround (fieldRn w) (fieldRa w))) ∨
    (fieldOp w = 6 ∧ fieldRd w = 0 ∧ fieldRa w = 0 ∧ fieldRb w = 0 ∧
      decode w = .ok (.ptest (fieldRn w) (fieldImm w))) ∨
    (¬ (fieldOp w = 1 ∧ fieldImm w = 0) ∧ ¬ (fieldOp w = 2 ∧ fieldImm w = 0) ∧
      ¬ (fieldOp w = 3 ∧ fieldRb w = 0 ∧ fieldImm w = 0) ∧
      ¬ (fieldOp w = 4 ∧ fieldRd w = 0 ∧ fieldRa w = 0 ∧ fieldRb w = 0 ∧ fieldImm w = 0) ∧
      ¬ (fieldOp w = 5 ∧ fieldRd w = 0 ∧ fieldRb w = 0 ∧ fieldImm w = 0) ∧
      ¬ (fieldOp w = 6 ∧ fieldRd w = 0 ∧ fieldRa w = 0 ∧ fieldRb w = 0) ∧
      decode w = .error (whyIllegal w)) := by
  unfold decode
  simp only [fits_modmul, fits_modexp, fits_modinv, fits_tdiv, fits_mrround, fits_ptest]
  split_ifs <;> simp_all

/-- The value of a word of format C: its fields do not overlap (30_encoding.md R51). -/
theorem formatC_toNat (op : Nat) (rd ra rb rn : Reg) (imm : Nat) (hop : op < 16) (himm : imm < 65536) :
    (formatC op rd ra rb rn imm).toNat =
      op * 2 ^ 28 + rd.val * 2 ^ 25 + ra.val * 2 ^ 22 + rb.val * 2 ^ 19 + rn.val * 2 ^ 16 + imm := by
  have h1 := rd.isLt
  have h2 := ra.isLt
  have h3 := rb.isLt
  have h4 := rn.isLt
  rw [formatC, BitVec.toNat_ofNat]
  generalize rd.val = a at *
  generalize ra.val = b at *
  generalize rb.val = c at *
  generalize rn.val = d at *
  exact Nat.mod_eq_of_lt (by omega)

/-- A field taken out of a sum of what lies above it, itself and what lies below it. -/
theorem field_of_sum {sum above value below lo n : Nat} (h : sum = above * 2 ^ (lo + n) + value * 2 ^ lo + below)
    (hv : value < 2 ^ n) (hb : below < 2 ^ lo) : sum / 2 ^ lo % 2 ^ n = value := by
  rw [h, show above * 2 ^ (lo + n) + value * 2 ^ lo + below = below + 2 ^ lo * (value + 2 ^ n * above) by
      rw [pow_add]; ring,
    Nat.add_mul_div_left _ _ (by positivity), Nat.div_eq_of_lt hb, Nat.zero_add, Nat.add_mul_mod_self_left,
    Nat.mod_eq_of_lt hv]

/-- The six fields of format C, taken out of their sum (30_encoding.md R51). -/
theorem fields_of_sum (op a b c d imm : Nat) (hop : op < 16) (ha : a < 8) (hb : b < 8) (hc : c < 8) (hd : d < 8)
    (himm : imm < 65536) :
    (op * 2 ^ 28 + a * 2 ^ 25 + b * 2 ^ 22 + c * 2 ^ 19 + d * 2 ^ 16 + imm) / 2 ^ 28 % 2 ^ 4 = op ∧
    (op * 2 ^ 28 + a * 2 ^ 25 + b * 2 ^ 22 + c * 2 ^ 19 + d * 2 ^ 16 + imm) / 2 ^ 25 % 2 ^ 3 = a ∧
    (op * 2 ^ 28 + a * 2 ^ 25 + b * 2 ^ 22 + c * 2 ^ 19 + d * 2 ^ 16 + imm) / 2 ^ 22 % 2 ^ 3 = b ∧
    (op * 2 ^ 28 + a * 2 ^ 25 + b * 2 ^ 22 + c * 2 ^ 19 + d * 2 ^ 16 + imm) / 2 ^ 19 % 2 ^ 3 = c ∧
    (op * 2 ^ 28 + a * 2 ^ 25 + b * 2 ^ 22 + c * 2 ^ 19 + d * 2 ^ 16 + imm) / 2 ^ 16 % 2 ^ 3 = d ∧
    (op * 2 ^ 28 + a * 2 ^ 25 + b * 2 ^ 22 + c * 2 ^ 19 + d * 2 ^ 16 + imm) / 2 ^ 0 % 2 ^ 16 = imm := by
  refine ⟨?_, ?_, ?_, ?_, ?_, ?_⟩
  · exact field_of_sum (above := 0) (lo := 28) (n := 4)
      (below := a * 2 ^ 25 + b * 2 ^ 22 + c * 2 ^ 19 + d * 2 ^ 16 + imm) (by omega) (by omega) (by omega)
  · exact field_of_sum (above := op) (lo := 25) (n := 3)
      (below := b * 2 ^ 22 + c * 2 ^ 19 + d * 2 ^ 16 + imm) (by omega) (by omega) (by omega)
  · exact field_of_sum (above := op * 2 ^ 3 + a) (lo := 22) (n := 3)
      (below := c * 2 ^ 19 + d * 2 ^ 16 + imm) (by omega) (by omega) (by omega)
  · exact field_of_sum (above := op * 2 ^ 6 + a * 2 ^ 3 + b) (lo := 19) (n := 3)
      (below := d * 2 ^ 16 + imm) (by omega) (by omega) (by omega)
  · exact field_of_sum (above := op * 2 ^ 9 + a * 2 ^ 6 + b * 2 ^ 3 + c) (lo := 16) (n := 3)
      (below := imm) (by omega) (by omega) (by omega)
  · exact field_of_sum (above := op * 2 ^ 12 + a * 2 ^ 9 + b * 2 ^ 6 + c * 2 ^ 3 + d) (lo := 0) (n := 16)
      (below := 0) (by omega) (by omega) (by omega)

/-! Each field of a word, as arithmetic. -/

theorem fieldRd_val (w : Word) : (fieldRd w).val = w.toNat / 2 ^ 25 % 2 ^ 3 := by
  rw [← Nat.shiftRight_eq_div_pow, ← BitVec.extractLsb'_toNat]; rfl

theorem fieldRa_val (w : Word) : (fieldRa w).val = w.toNat / 2 ^ 22 % 2 ^ 3 := by
  rw [← Nat.shiftRight_eq_div_pow, ← BitVec.extractLsb'_toNat]; rfl

theorem fieldRb_val (w : Word) : (fieldRb w).val = w.toNat / 2 ^ 19 % 2 ^ 3 := by
  rw [← Nat.shiftRight_eq_div_pow, ← BitVec.extractLsb'_toNat]; rfl

theorem fieldRn_val (w : Word) : (fieldRn w).val = w.toNat / 2 ^ 16 % 2 ^ 3 := by
  rw [← Nat.shiftRight_eq_div_pow, ← BitVec.extractLsb'_toNat]; rfl

theorem fieldOp_eq (w : Word) : fieldOp w = w.toNat / 2 ^ 28 % 2 ^ 4 := by
  rw [fieldOp, BitVec.extractLsb'_toNat, Nat.shiftRight_eq_div_pow]

theorem fieldImm_eq (w : Word) : fieldImm w = w.toNat / 2 ^ 0 % 2 ^ 16 := by
  rw [fieldImm, BitVec.extractLsb'_toNat, Nat.shiftRight_eq_div_pow]

/-- Every field of a word of format C is the one it was made from. -/
theorem fields_formatC (op : Nat) (rd ra rb rn : Reg) (imm : Nat) (hop : op < 16) (himm : imm < 65536) :
    fieldOp (formatC op rd ra rb rn imm) = op ∧ fieldRd (formatC op rd ra rb rn imm) = rd ∧
    fieldRa (formatC op rd ra rb rn imm) = ra ∧ fieldRb (formatC op rd ra rb rn imm) = rb ∧
    fieldRn (formatC op rd ra rb rn imm) = rn ∧ fieldImm (formatC op rd ra rb rn imm) = imm := by
  obtain ⟨h1, h2, h3, h4, h5, h6⟩ :=
    fields_of_sum op rd.val ra.val rb.val rn.val imm hop rd.isLt ra.isLt rb.isLt rn.isLt himm
  have hw := formatC_toNat op rd ra rb rn imm hop himm
  rw [← hw] at h1 h2 h3 h4 h5 h6
  rw [← fieldOp_eq] at h1
  rw [← fieldRd_val] at h2
  rw [← fieldRa_val] at h3
  rw [← fieldRb_val] at h4
  rw [← fieldRn_val] at h5
  rw [← fieldImm_eq] at h6
  exact ⟨h1, Fin.ext h2, Fin.ext h3, Fin.ext h4, Fin.ext h5, h6⟩

/-- A word is the word of format C of its own fields. -/
theorem formatC_fields (w : Word) :
    formatC (fieldOp w) (fieldRd w) (fieldRa w) (fieldRb w) (fieldRn w) (fieldImm w) = w := by
  apply BitVec.eq_of_toNat_eq
  rw [formatC_toNat _ _ _ _ _ _ (BitVec.isLt _) (BitVec.isLt _), fieldOp_eq, fieldRd_val, fieldRa_val, fieldRb_val,
    fieldRn_val, fieldImm_eq]
  have hw : w.toNat < 2 ^ 32 := w.isLt
  generalize w.toNat = v at *
  omega

end Sys2Proof
end

