-- ==== Sys2Proof/Laws/State.lean ====
section
/-! SUPPORT. What each operation on the state does to each field, one lemma a field, and what the register reads give after
each register write. -/

namespace Sys2Proof.Machine

@[simp] theorem acceptCommand_x (w : Word) (s : State) : (acceptCommand w s).x = s.x := rfl
@[simp] theorem acceptCommand_undef (w : Word) (s : State) : (acceptCommand w s).undef = s.undef := rfl
@[simp] theorem acceptCommand_status (w : Word) (s : State) : (acceptCommand w s).status = statusBusy := rfl
@[simp] theorem acceptCommand_pend (w : Word) (s : State) : (acceptCommand w s).pend = some w := rfl
@[simp] theorem acceptCommand_answers (w : Word) (s : State) : (acceptCommand w s).answers = s.answers := rfl
@[simp] theorem acceptCommand_draws (w : Word) (s : State) : (acceptCommand w s).draws = s.draws := rfl
@[simp] theorem acceptCommand_fresh (w : Word) (s : State) : (acceptCommand w s).fresh = s.fresh := rfl
@[simp] theorem acceptCommand_agenda (w : Word) (s : State) : (acceptCommand w s).agenda = s.agenda := rfl
@[simp] theorem acceptCommand_reads (w : Word) (s : State) : (acceptCommand w s).reads = s.reads := rfl

@[simp] theorem finish_x (st : Status) (s : State) : (finish st s).x = s.x := rfl
@[simp] theorem finish_undef (st : Status) (s : State) : (finish st s).undef = s.undef := rfl
@[simp] theorem finish_status (st : Status) (s : State) : (finish st s).status = st := rfl
@[simp] theorem finish_pend (st : Status) (s : State) : (finish st s).pend = none := rfl
@[simp] theorem finish_answers (st : Status) (s : State) : (finish st s).answers = [] := rfl
@[simp] theorem finish_draws (st : Status) (s : State) : (finish st s).draws = s.draws := rfl
@[simp] theorem finish_fresh (st : Status) (s : State) : (finish st s).fresh = s.fresh := rfl
@[simp] theorem finish_agenda (st : Status) (s : State) : (finish st s).agenda = s.agenda := rfl
@[simp] theorem finish_reads (st : Status) (s : State) : (finish st s).reads = s.reads := rfl

@[simp] theorem fail_x (e : ErrCode) (s : State) : (fail e s).x = s.x := rfl
@[simp] theorem fail_undef (e : ErrCode) (s : State) : (fail e s).undef = s.undef := rfl
@[simp] theorem fail_status (e : ErrCode) (s : State) : (fail e s).status = statusFailed e := rfl
@[simp] theorem fail_pend (e : ErrCode) (s : State) : (fail e s).pend = none := rfl
@[simp] theorem fail_answers (e : ErrCode) (s : State) : (fail e s).answers = [] := rfl
@[simp] theorem fail_draws (e : ErrCode) (s : State) : (fail e s).draws = s.draws := rfl
@[simp] theorem fail_fresh (e : ErrCode) (s : State) : (fail e s).fresh = s.fresh := rfl
@[simp] theorem fail_agenda (e : ErrCode) (s : State) : (fail e s).agenda = s.agenda := rfl
@[simp] theorem fail_reads (e : ErrCode) (s : State) : (fail e s).reads = s.reads := rfl

@[simp] theorem doneVerdict_x (b : Bool) (s : State) : (doneVerdict b s).x = s.x := rfl
@[simp] theorem doneVerdict_undef (b : Bool) (s : State) : (doneVerdict b s).undef = s.undef := rfl
@[simp] theorem doneVerdict_status (b : Bool) (s : State) : (doneVerdict b s).status = statusDone b := rfl
@[simp] theorem doneVerdict_pend (b : Bool) (s : State) : (doneVerdict b s).pend = none := rfl
@[simp] theorem doneVerdict_answers (b : Bool) (s : State) : (doneVerdict b s).answers = [] := rfl
@[simp] theorem doneVerdict_draws (b : Bool) (s : State) : (doneVerdict b s).draws = s.draws := rfl
@[simp] theorem doneVerdict_fresh (b : Bool) (s : State) : (doneVerdict b s).fresh = s.fresh := rfl
@[simp] theorem doneVerdict_agenda (b : Bool) (s : State) : (doneVerdict b s).agenda = s.agenda := rfl
@[simp] theorem doneVerdict_reads (b : Bool) (s : State) : (doneVerdict b s).reads = s.reads := rfl

@[simp] theorem doneWrite_x (rd : Reg) (v : Nat) (s : State) : (doneWrite rd v s).x = s.x.set rd.val v := rfl
@[simp] theorem doneWrite_undef (rd : Reg) (v : Nat) (s : State) :
    (doneWrite rd v s).undef = s.undef.set rd.val [] := rfl
@[simp] theorem doneWrite_status (rd : Reg) (v : Nat) (s : State) :
    (doneWrite rd v s).status = statusDone false := rfl
@[simp] theorem doneWrite_pend (rd : Reg) (v : Nat) (s : State) : (doneWrite rd v s).pend = none := rfl
@[simp] theorem doneWrite_answers (rd : Reg) (v : Nat) (s : State) : (doneWrite rd v s).answers = [] := rfl
@[simp] theorem doneWrite_draws (rd : Reg) (v : Nat) (s : State) : (doneWrite rd v s).draws = s.draws := rfl
@[simp] theorem doneWrite_fresh (rd : Reg) (v : Nat) (s : State) : (doneWrite rd v s).fresh = s.fresh := rfl
@[simp] theorem doneWrite_agenda (rd : Reg) (v : Nat) (s : State) : (doneWrite rd v s).agenda = s.agenda := rfl
@[simp] theorem doneWrite_reads (rd : Reg) (v : Nat) (s : State) : (doneWrite rd v s).reads = s.reads := rfl

@[simp] theorem clearSequencer_x (s : State) : (clearSequencer s).x = s.x := rfl
@[simp] theorem clearSequencer_undef (s : State) : (clearSequencer s).undef = s.undef := rfl
@[simp] theorem clearSequencer_status (s : State) : (clearSequencer s).status = Status.reset := rfl
@[simp] theorem clearSequencer_pend (s : State) : (clearSequencer s).pend = none := rfl
@[simp] theorem clearSequencer_answers (s : State) : (clearSequencer s).answers = [] := rfl
@[simp] theorem clearSequencer_draws (s : State) : (clearSequencer s).draws = s.draws + 1 := rfl
@[simp] theorem clearSequencer_fresh (s : State) : (clearSequencer s).fresh = s.fresh := rfl
@[simp] theorem clearSequencer_agenda (s : State) : (clearSequencer s).agenda = s.agenda := rfl
@[simp] theorem clearSequencer_reads (s : State) : (clearSequencer s).reads = s.reads := rfl

@[simp] theorem writeReg_x (s : State) (r : Reg) (v : Nat) : (writeReg s r v).x = s.x.set r.val v := rfl
@[simp] theorem writeReg_undef (s : State) (r : Reg) (v : Nat) :
    (writeReg s r v).undef = s.undef.set r.val [] := rfl
@[simp] theorem writeReg_status (s : State) (r : Reg) (v : Nat) : (writeReg s r v).status = s.status := rfl
@[simp] theorem writeReg_pend (s : State) (r : Reg) (v : Nat) : (writeReg s r v).pend = s.pend := rfl
@[simp] theorem writeReg_answers (s : State) (r : Reg) (v : Nat) : (writeReg s r v).answers = s.answers := rfl
@[simp] theorem writeReg_draws (s : State) (r : Reg) (v : Nat) : (writeReg s r v).draws = s.draws := rfl
@[simp] theorem writeReg_fresh (s : State) (r : Reg) (v : Nat) : (writeReg s r v).fresh = s.fresh := rfl
@[simp] theorem writeReg_agenda (s : State) (r : Reg) (v : Nat) : (writeReg s r v).agenda = s.agenda := rfl
@[simp] theorem writeReg_reads (s : State) (r : Reg) (v : Nat) : (writeReg s r v).reads = s.reads := rfl

@[simp] theorem forgetReg_x (W : Nat) (s : State) (r : Reg) :
    (forgetReg W s r).x = s.x.set r.val (Config.freeOperand s.fresh % 2 ^ W) := rfl
@[simp] theorem forgetReg_undef (W : Nat) (s : State) (r : Reg) :
    (forgetReg W s r).undef = s.undef.set r.val (List.range (Config.limbs W)) := rfl
@[simp] theorem forgetReg_status (W : Nat) (s : State) (r : Reg) : (forgetReg W s r).status = s.status := rfl
@[simp] theorem forgetReg_pend (W : Nat) (s : State) (r : Reg) : (forgetReg W s r).pend = s.pend := rfl
@[simp] theorem forgetReg_answers (W : Nat) (s : State) (r : Reg) : (forgetReg W s r).answers = s.answers := rfl
@[simp] theorem forgetReg_draws (W : Nat) (s : State) (r : Reg) : (forgetReg W s r).draws = s.draws := rfl
@[simp] theorem forgetReg_fresh (W : Nat) (s : State) (r : Reg) : (forgetReg W s r).fresh = s.fresh + 1 := rfl
@[simp] theorem forgetReg_agenda (W : Nat) (s : State) (r : Reg) : (forgetReg W s r).agenda = s.agenda := rfl
@[simp] theorem forgetReg_reads (W : Nat) (s : State) (r : Reg) : (forgetReg W s r).reads = s.reads := rfl

@[simp] theorem writeLimb_x (W : Nat) (s : State) (r : Reg) (j : Nat) (v : Word) :
    (writeLimb W s r j v).x = s.x.set r.val (setBits (readReg s r) (32 * j) (limbWidth W j) v.toNat) := rfl
@[simp] theorem writeLimb_undef (W : Nat) (s : State) (r : Reg) (j : Nat) (v : Word) :
    (writeLimb W s r j v).undef = s.undef.set r.val ((undefLimbs s r).filter fun k => k != j) := rfl
@[simp] theorem writeLimb_status (W : Nat) (s : State) (r : Reg) (j : Nat) (v : Word) :
    (writeLimb W s r j v).status = s.status := rfl
@[simp] theorem writeLimb_pend (W : Nat) (s : State) (r : Reg) (j : Nat) (v : Word) :
    (writeLimb W s r j v).pend = s.pend := rfl
@[simp] theorem writeLimb_answers (W : Nat) (s : State) (r : Reg) (j : Nat) (v : Word) :
    (writeLimb W s r j v).answers = s.answers := rfl
@[simp] theorem writeLimb_draws (W : Nat) (s : State) (r : Reg) (j : Nat) (v : Word) :
    (writeLimb W s r j v).draws = s.draws := rfl
@[simp] theorem writeLimb_fresh (W : Nat) (s : State) (r : Reg) (j : Nat) (v : Word) :
    (writeLimb W s r j v).fresh = s.fresh := rfl
@[simp] theorem writeLimb_agenda (W : Nat) (s : State) (r : Reg) (j : Nat) (v : Word) :
    (writeLimb W s r j v).agenda = s.agenda := rfl
@[simp] theorem writeLimb_reads (W : Nat) (s : State) (r : Reg) (j : Nat) (v : Word) :
    (writeLimb W s r j v).reads = s.reads := rfl

@[simp] theorem hardReset_x (W : Nat) (s : State) :
    (hardReset W s).x = Vector.ofFn fun r : Fin 8 => Config.freeOperand (s.fresh + r.val) % 2 ^ W := rfl
@[simp] theorem hardReset_undef (W : Nat) (s : State) :
    (hardReset W s).undef = Vector.replicate 8 (List.range (Config.limbs W)) := rfl
@[simp] theorem hardReset_status (W : Nat) (s : State) : (hardReset W s).status = Status.reset := rfl
@[simp] theorem hardReset_pend (W : Nat) (s : State) : (hardReset W s).pend = none := rfl
@[simp] theorem hardReset_answers (W : Nat) (s : State) : (hardReset W s).answers = [] := rfl
@[simp] theorem hardReset_draws (W : Nat) (s : State) : (hardReset W s).draws = s.draws + 1 := rfl
@[simp] theorem hardReset_fresh (W : Nat) (s : State) : (hardReset W s).fresh = s.fresh + 8 := rfl
@[simp] theorem hardReset_agenda (W : Nat) (s : State) : (hardReset W s).agenda = s.agenda := rfl
@[simp] theorem hardReset_reads (W : Nat) (s : State) : (hardReset W s).reads = s.reads := rfl

/-! The register reads. -/

theorem readReg_def (s : State) (r : Reg) : readReg s r = s.x[r.val] := rfl

theorem undefLimbs_def (s : State) (r : Reg) : undefLimbs s r = s.undef[r.val] := rfl

/-- Two states with the same registers read the same. -/
theorem readReg_congr {s t : State} (h : t.x = s.x) (r : Reg) : readReg t r = readReg s r := by
  simp only [readReg, h]

/-- Two states with the same marks have the same marks of each register. -/
theorem undefLimbs_congr {s t : State} (h : t.undef = s.undef) (r : Reg) : undefLimbs t r = undefLimbs s r := by
  simp only [undefLimbs, h]

theorem readReg_of_set {s t : State} {r : Reg} {v : Nat} (h : t.x = s.x.set r.val v) (q : Reg) :
    readReg t q = if q = r then v else readReg s q := by
  simp only [readReg, h, Vector.getElem_set, Fin.ext_iff, eq_comm (a := r.val)]

theorem undefLimbs_of_set {s t : State} {r : Reg} {m : List Nat} (h : t.undef = s.undef.set r.val m) (q : Reg) :
    undefLimbs t q = if q = r then m else undefLimbs s q := by
  simp only [undefLimbs, h, Vector.getElem_set, Fin.ext_iff, eq_comm (a := r.val)]

@[simp] theorem readReg_doneWrite (rd : Reg) (v : Nat) (s : State) (q : Reg) :
    readReg (doneWrite rd v s) q = if q = rd then v else readReg s q := readReg_of_set rfl q

@[simp] theorem undefLimbs_doneWrite (rd : Reg) (v : Nat) (s : State) (q : Reg) :
    undefLimbs (doneWrite rd v s) q = if q = rd then [] else undefLimbs s q := undefLimbs_of_set rfl q

@[simp] theorem readReg_finish (st : Status) (s : State) (q : Reg) : readReg (finish st s) q = readReg s q := rfl

@[simp] theorem undefLimbs_finish (st : Status) (s : State) (q : Reg) : undefLimbs (finish st s) q = undefLimbs s q := rfl

@[simp] theorem readReg_fail (e : ErrCode) (s : State) (q : Reg) : readReg (fail e s) q = readReg s q := rfl

@[simp] theorem undefLimbs_fail (e : ErrCode) (s : State) (q : Reg) : undefLimbs (fail e s) q = undefLimbs s q := rfl

@[simp] theorem readReg_doneVerdict (b : Bool) (s : State) (q : Reg) :
    readReg (doneVerdict b s) q = readReg s q := rfl

@[simp] theorem undefLimbs_doneVerdict (b : Bool) (s : State) (q : Reg) : undefLimbs (doneVerdict b s) q = undefLimbs s q := rfl

@[simp] theorem readReg_acceptCommand (w : Word) (s : State) (q : Reg) :
    readReg (acceptCommand w s) q = readReg s q := rfl

@[simp] theorem undefLimbs_acceptCommand (w : Word) (s : State) (q : Reg) :
    undefLimbs (acceptCommand w s) q = undefLimbs s q := rfl

@[simp] theorem readReg_clearSequencer (s : State) (q : Reg) : readReg (clearSequencer s) q = readReg s q := rfl

@[simp] theorem undefLimbs_clearSequencer (s : State) (q : Reg) : undefLimbs (clearSequencer s) q = undefLimbs s q := rfl

@[simp] theorem readReg_forgetReg (W : Nat) (s : State) (r q : Reg) :
    readReg (forgetReg W s r) q = if q = r then Config.freeOperand s.fresh % 2 ^ W else readReg s q :=
  readReg_of_set rfl q

@[simp] theorem undefLimbs_forgetReg (W : Nat) (s : State) (r q : Reg) :
    undefLimbs (forgetReg W s r) q = if q = r then List.range (Config.limbs W) else undefLimbs s q :=
  undefLimbs_of_set rfl q

@[simp] theorem readReg_writeLimb (W : Nat) (s : State) (r : Reg) (j : Nat) (v : Word) (q : Reg) :
    readReg (writeLimb W s r j v) q =
      if q = r then setBits (readReg s r) (32 * j) (limbWidth W j) v.toNat else readReg s q := readReg_of_set rfl q

@[simp] theorem undefLimbs_writeLimb (W : Nat) (s : State) (r : Reg) (j : Nat) (v : Word) (q : Reg) :
    undefLimbs (writeLimb W s r j v) q = if q = r then (undefLimbs s r).filter (fun k => k != j) else undefLimbs s q :=
  undefLimbs_of_set rfl q

@[simp] theorem readReg_hardReset (W : Nat) (s : State) (q : Reg) :
    readReg (hardReset W s) q = Config.freeOperand (s.fresh + q.val) % 2 ^ W := by
  simp [readReg]

@[simp] theorem undefLimbs_hardReset (W : Nat) (s : State) (q : Reg) :
    undefLimbs (hardReset W s) q = List.range (Config.limbs W) := by
  simp [undefLimbs]

/-! The defined marks. -/

theorem limbDefined_iff (s : State) (r : Reg) (j : Nat) : limbDefined s r j = true ↔ j ∉ undefLimbs s r := by
  simp [limbDefined]

theorem regDefined_iff (s : State) (r : Reg) : regDefined s r = true ↔ undefLimbs s r = [] := by
  simp [regDefined]

/-- A defined register has every limb defined. -/
theorem limbDefined_of_regDefined {s : State} {r : Reg} (h : regDefined s r = true) (j : Nat) :
    limbDefined s r j = true := by
  rw [limbDefined_iff, (regDefined_iff s r).1 h]
  exact List.not_mem_nil

@[simp] theorem limbDefined_writeLimb (W : Nat) (s : State) (r : Reg) (j : Nat) (v : Word) (q : Reg) (k : Nat) :
    limbDefined (writeLimb W s r j v) q k = if q = r ∧ k = j then true else limbDefined s q k := by
  rw [Bool.eq_iff_iff, limbDefined_iff, undefLimbs_writeLimb]
  by_cases hq : q = r
  · subst hq
    by_cases hk : k = j
    · simp [hk]
    · simp [hk, limbDefined_iff]
  · simp [hq, limbDefined_iff]

@[simp] theorem limbDefined_hardReset (W : Nat) (s : State) (r : Reg) (j : Nat) :
    limbDefined (hardReset W s) r j = decide (Config.limbs W ≤ j) := by
  rw [Bool.eq_iff_iff, limbDefined_iff, undefLimbs_hardReset]
  simp

end Sys2Proof.Machine
end

