-- ==== Sys2Proof/Laws/Ops.lean ====
section
/-! SUPPORT. What a completion step can do, once for all commands, what a soft reset does, and what the host window and the
random-number port do; the inversion lemmas that proofs cite instead of unfolding these operations. -/

namespace Sys2Proof.Machine

/-- Whatever a command does: it fails, or it reports a verdict and has no destination, or it writes its destination with a
value, or it is a PTEST that waits. -/
theorem exec_cases {i : Instr} {s t : State} (h : exec i s = .next t) :
    (∃ e, e ≠ .noError ∧ t = fail e s) ∨
    (∃ b, destination i = none ∧ t = doneVerdict b s) ∨
    (∃ rd v, destination i = some rd ∧ t = doneWrite rd v s) ∨
    (∃ rn rounds, i = .ptest rn rounds ∧ ptestResult (readReg s rn) rounds s.answers = .waiting ∧ t = s) := by
  cases i with
  | modmul rd ra rb rn =>
    simp only [exec, execModmul] at h
    split at h <;> cases h
    · exact .inl ⟨_, by decide, rfl⟩
    · exact .inr (.inr (.inl ⟨rd, _, rfl, rfl⟩))
  | modexp rd ra rb rn =>
    simp only [exec, execModexp] at h
    split at h <;> cases h
    · exact .inl ⟨_, by decide, rfl⟩
    · exact .inr (.inr (.inl ⟨rd, _, rfl, rfl⟩))
  | modinv rd ra rn =>
    simp only [exec, execModinv] at h
    split at h
    · cases h; exact .inl ⟨_, by decide, rfl⟩
    · split at h <;> cases h
      · exact .inl ⟨_, by decide, rfl⟩
      · exact .inr (.inr (.inl ⟨rd, _, rfl, rfl⟩))
  | tdiv rn =>
    simp only [exec, execTdiv] at h
    cases h
    exact .inr (.inl ⟨_, rfl, rfl⟩)
  | mrround rn ra =>
    simp only [exec, execMrround] at h
    split at h
    · cases h; exact .inl ⟨_, by decide, rfl⟩
    · split at h <;> cases h
      · exact .inl ⟨_, by decide, rfl⟩
      · exact .inr (.inl ⟨_, rfl, rfl⟩)
  | ptest rn rounds =>
    simp only [exec, execPtest] at h
    split at h <;> cases h
    · exact .inl ⟨_, by decide, rfl⟩
    · exact .inl ⟨_, by decide, rfl⟩
    · exact .inr (.inl ⟨_, rfl, rfl⟩)
    · exact .inr (.inl ⟨_, rfl, rfl⟩)
    · exact .inr (.inr (.inr ⟨rn, rounds, rfl, ‹_›, rfl⟩))

/-- A command neither faults nor is refused. -/
theorem exec_next (i : Instr) (s : State) : ∃ t, exec i s = .next t := by
  cases i with
  | modmul rd ra rb rn => simp only [exec, execModmul]; split <;> exact ⟨_, rfl⟩
  | modexp rd ra rb rn => simp only [exec, execModexp]; split <;> exact ⟨_, rfl⟩
  | modinv rd ra rn =>
    simp only [exec, execModinv]
    split
    · exact ⟨_, rfl⟩
    · split <;> exact ⟨_, rfl⟩
  | tdiv rn => exact ⟨_, rfl⟩
  | mrround rn ra =>
    simp only [exec, execMrround]
    split
    · exact ⟨_, rfl⟩
    · split <;> exact ⟨_, rfl⟩
  | ptest rn rounds => simp only [exec, execPtest]; split <;> exact ⟨_, rfl⟩

/-- A soft reset clears the sequencer, and forgets at most the destination of an aborted command. -/
theorem softReset_cases (W : Nat) (s : State) :
    (abortedDest s = none ∧ softReset W s = clearSequencer s) ∨
    (∃ rd, abortedDest s = some rd ∧ softReset W s = clearSequencer (forgetReg W s rd)) := by
  unfold softReset
  cases h : abortedDest s with
  | none => exact .inl ⟨rfl, rfl⟩
  | some rd => exact .inr ⟨rd, rfl, rfl⟩

/-- A soft reset passes over the draw that stands. -/
@[simp] theorem softReset_draws (W : Nat) (s : State) : (softReset W s).draws = s.draws + 1 := by
  obtain ⟨-, h⟩ | ⟨rd, -, h⟩ := softReset_cases W s <;> rw [h] <;> rfl

/-- A read of the window changes nothing but the host's record and, where the value is unspecified, the counter of free
values. -/
theorem readSlot_cases (W : Nat) (slot : Slot) (s : State) :
    (∃ v, slotValue W s slot = some v ∧ readSlot W slot s = { s with reads := s.reads ++ [v] }) ∨
    (slotValue W s slot = none ∧
      readSlot W slot s = { s with reads := s.reads ++ [Config.freeWord s.fresh], fresh := s.fresh + 1 }) := by
  unfold readSlot
  cases h : slotValue W s slot with
  | none => exact .inr ⟨rfl, rfl⟩
  | some v => exact .inl ⟨v, rfl, rfl⟩

/-- A write of the window: a soft reset, or nothing, or, in IDLE, an accepted command or a written limb. -/
theorem writeSlot_cases (W : Nat) (slot : Slot) (v : Word) (s : State) :
    (slot = .ctrl ∧ writeSlot W slot v s = softReset W s) ∨
    writeSlot W slot v s = s ∨
    (s.status.busy = false ∧ slot = .cmd ∧ writeSlot W slot v s = acceptCommand v s) ∨
    (∃ r j, s.status.busy = false ∧ slot = .limb r j ∧ writeSlot W slot v s = writeLimb W s r j v) := by
  unfold writeSlot
  split
  · exact .inl ⟨by simp_all, rfl⟩
  · split
    · exact .inr (.inl rfl)
    · cases slot with
      | cmd => exact .inr (.inr (.inl ⟨by simp_all, rfl, rfl⟩))
      | limb r j => exact .inr (.inr (.inr ⟨r, j, by simp_all, rfl, rfl⟩))
      | status => exact .inr (.inl rfl)
      | ctrl => exact .inr (.inl rfl)
      | config => exact .inr (.inl rfl)
      | reserved => exact .inr (.inl rfl)

/-- An arriving answer is kept for the PTEST that waits for that draw, or dropped. -/
theorem rngAnswer_cases (W draw r : Nat) (s : State) :
    (awaitsAnswer s = true ∧ draw = s.draws ∧
      rngAnswer W draw r s = { s with answers := s.answers ++ [r % 2 ^ W], draws := s.draws + 1 }) ∨
    ((awaitsAnswer s = false ∨ draw ≠ s.draws) ∧ rngAnswer W draw r s = s) := by
  unfold rngAnswer
  split
  case isTrue h => exact .inl ⟨h.1, h.2, rfl⟩
  case isFalse h =>
    refine .inr ⟨?_, rfl⟩
    cases hw : awaitsAnswer s with
    | true => exact .inr fun hd => h ⟨hw, hd⟩
    | false => exact .inl rfl

/-- The engine's turn, when it answers a next state: idle, or a decoded command, or an illegal word. -/
theorem engineTurn_cases {s t : State} (h : engineTurn s = .next t) :
    (s.status.busy = false ∧ t = s) ∨
    (∃ w i, s.status.busy = true ∧ s.pend = some w ∧ decode w = .ok i ∧ exec i s = .next t) ∨
    (∃ w e, s.status.busy = true ∧ s.pend = some w ∧ decode w = .error e ∧ t = fail .illegalCmd s) := by
  unfold engineTurn at h
  split at h
  · unfold completionStep at h
    split at h
    · split at h
      · exact .inr (.inl ⟨_, _, ‹_›, ‹_›, ‹_›, h⟩)
      · cases h; exact .inr (.inr ⟨_, _, ‹_›, ‹_›, ‹_›, rfl⟩)
    · cases h
  · cases h; exact .inl ⟨by simp_all, rfl⟩

/-- The host's turn, when it answers a next state: a read or a write of a slot of the window, or a hard reset. -/
theorem hostAct_cases {W : Nat} {a : HostAction} {s t : State} (h : hostAct W a s = .next t) :
    (∃ size addr slot, a = .read size addr ∧ checkAccess W size addr = .ok slot ∧ t = readSlot W slot s) ∨
    (∃ size addr v slot, a = .write size addr v ∧ checkAccess W size addr = .ok slot ∧ t = writeSlot W slot v s) ∨
    (a = .hardReset ∧ t = hardReset W s) := by
  cases a with
  | read size addr =>
    simp only [hostAct, hostRead] at h
    split at h <;> cases h
    exact .inl ⟨_, _, _, rfl, ‹_›, rfl⟩
  | write size addr v =>
    simp only [hostAct, hostWrite] at h
    split at h <;> cases h
    exact .inr (.inl ⟨_, _, _, _, rfl, ‹_›, rfl⟩)
  | hardReset => cases h; exact .inr (.inr ⟨rfl, rfl⟩)

/-- No source is undefined exactly when each is defined. -/
theorem undefinedSource_eq_none_iff (i : Instr) (s : State) :
    undefinedSource i s = none ↔ ∀ r ∈ sources i, regDefined s r = true := by
  simp [undefinedSource]

/-- One poll reads STATUS and plans the turns after it. -/
theorem hostPoll_eq (W : Nat) (between : List (List OtherTurn)) (rest : List Event) (s : State) :
    hostPoll W between rest s =
      { s with agenda := turnsAfterPoll s.status.busy between rest, reads := s.reads ++ [statusWord s.status] } := by
  have h : (statusWord s.status).getLsbD 0 = s.status.busy := by
    obtain ⟨busy, done, v, err⟩ := s.status
    cases busy <;> cases done <;> cases v <;> cases err <;> rfl
  rw [← h]
  rfl

/-- One step, when it answers a next state: the engine's turn (owed, or on the agenda), the host's, one poll, or the
environment's. -/
theorem stepAt_cases {W : Nat} {s t : State} (h : stepAt W s = .next t) :
    (s.agenda = [] ∧ engineTurn s = .next t) ∨
    (∃ rest, s.agenda = .engine :: rest ∧ engineTurn { s with agenda := rest } = .next t) ∨
    (∃ a rest, s.agenda = .host a :: rest ∧ hostAct W a { s with agenda := rest } = .next t) ∨
    (∃ draw r rest, s.agenda = .rng draw r :: rest ∧ t = rngAnswer W draw r { s with agenda := rest }) ∨
    (∃ between rest, s.agenda = .poll between :: rest ∧ t = hostPoll W between rest s) := by
  unfold stepAt at h
  split at h
  · exact .inl ⟨‹_›, h⟩
  · exact .inr (.inl ⟨_, ‹_›, h⟩)
  · exact .inr (.inr (.inl ⟨_, _, ‹_›, h⟩))
  · cases h; exact .inr (.inr (.inr (.inr ⟨_, _, ‹_›, rfl⟩)))
  · cases h; exact .inr (.inr (.inr (.inl ⟨_, _, _, ‹_›, rfl⟩)))

/-- A strict step stops at the first undefined register that the command about to complete reads, and is the step
otherwise. -/
theorem strictStepAt_cases (W : Nat) (s : State) :
    (∃ r w i, engineHasTurn s = true ∧ s.status.busy = true ∧ s.pend = some w ∧ decode w = .ok i ∧
      undefinedSource i s = some r ∧ strictStepAt W s = .fault (.undefinedSource r)) ∨
    ((engineHasTurn s = true → undefinedRead s = none) ∧ strictStepAt W s = strictOutcome (stepAt W s)) := by
  unfold strictStepAt
  cases ht : engineHasTurn s with
  | false => exact .inr ⟨fun h => (by cases h), rfl⟩
  | true =>
    cases hr : undefinedRead s with
    | none => exact .inr ⟨fun _ => rfl, by simp [hr]⟩
    | some r =>
      have hu := hr
      unfold undefinedRead at hu
      split at hu
      · split at hu
        · split at hu
          · exact .inl ⟨r, _, _, rfl, ‹_›, ‹_›, ‹_›, hu, by simp [hr]⟩
          · cases hu
        · cases hu
      · cases hu

end Sys2Proof.Machine
end

