-- ==== Sys2Proof/Laws/Window.lean ====
section
/-! SUPPORT. The map of the host window, and the bits of a limb: what each offset is, and what reading and writing a field
of a natural number does to its bits. -/

namespace Sys2Proof.Machine

/-- The offset of a limb is that limb's slot. -/
theorem slotAt_limbOffset {L j : Nat} (r : Reg) (hj : j < L) : slotAt L (limbOffset L r j) = some (.limb r j) := by
  have hr : r.val < 8 := r.isLt
  have hle : r.val * L + j < 8 * L := by
    have : r.val * L + L ≤ 8 * L := by
      calc r.val * L + L = (r.val + 1) * L := by ring
        _ ≤ 8 * L := Nat.mul_le_mul_right _ (by omega)
    omega
  have h4 : (0x100 + 4 * (r.val * L + j) - 0x100) / 4 = r.val * L + j := by omega
  unfold slotAt limbOffset
  rw [if_neg (by omega), if_neg (by omega), if_neg (by omega), if_neg (by omega), if_neg (by omega), if_pos (by omega),
    h4, Nat.mul_comm r.val L, Nat.mul_add_div (by omega), Nat.mul_add_mod, Nat.mod_eq_of_lt hj, Nat.div_eq_of_lt hj]
  simp [Fin.ofNat, Nat.mod_eq_of_lt hr]

/-- A slot that is a limb stands at that limb's offset. -/
theorem slotAt_eq_limb {L addr j : Nat} {r : Reg} (h4 : addr % 4 = 0) (h : slotAt L addr = some (.limb r j)) :
    j < L ∧ addr = limbOffset L r j := by
  unfold slotAt at h
  repeat (split at h; · cases h)
  split at h
  · rename_i h1 h2
    simp only [Option.some.injEq, Slot.limb.injEq] at h
    obtain ⟨hr, hj⟩ := h
    have hL : 0 < L := by omega
    have hk : (addr - 0x100) / 4 / L < 8 := by
      rw [Nat.div_lt_iff_lt_mul hL]; omega
    refine ⟨by rw [← hj]; exact Nat.mod_lt _ hL, ?_⟩
    have hrv : r.val = (addr - 0x100) / 4 / L := by
      rw [← hr]; simp [Fin.ofNat, Nat.mod_eq_of_lt hk]
    unfold limbOffset
    rw [hrv, ← hj, Nat.mul_comm (_ / L) L, Nat.div_add_mod]
    omega
  · cases h

theorem slotAt_eq_none_iff (L addr : Nat) : slotAt L addr = none ↔ 0x100 + 32 * L ≤ addr := by
  unfold slotAt
  repeat (split; · simp; omega)
  simp; omega

/-- An access is refused unless it is a 32-bit one, aligned and inside the window. -/
theorem checkAccess_ok_iff (W size addr : Nat) (slot : Slot) :
    checkAccess W size addr = .ok slot ↔
      size = 4 ∧ addr % 4 = 0 ∧ slotAt (Config.limbs W) addr = some slot := by
  unfold checkAccess
  split
  · simp_all
  · split
    · simp_all
    · split <;> simp_all

/-! What an aligned 32-bit access at a given offset reaches (20_memory.md R31). -/

theorem checkAccess_cmd (W : Nat) : checkAccess W 4 0x000 = .ok .cmd := rfl
theorem checkAccess_status (W : Nat) : checkAccess W 4 0x004 = .ok .status := rfl
theorem checkAccess_ctrl (W : Nat) : checkAccess W 4 0x008 = .ok .ctrl := rfl
theorem checkAccess_config (W : Nat) : checkAccess W 4 0x00C = .ok .config := rfl

theorem checkAccess_reserved {W addr : Nat} (h4 : addr % 4 = 0) (h1 : 0x010 ≤ addr) (h2 : addr < 0x100) :
    checkAccess W 4 addr = .ok .reserved := by
  rw [checkAccess_ok_iff]
  refine ⟨rfl, h4, ?_⟩
  unfold slotAt
  rw [if_neg (by omega), if_neg (by omega), if_neg (by omega), if_neg (by omega), if_pos h2]

theorem checkAccess_limb {W j : Nat} (r : Reg) (hj : j < Config.limbs W) :
    checkAccess W 4 (0x100 + 4 * (r.val * Config.limbs W + j)) = .ok (.limb r j) := by
  rw [checkAccess_ok_iff]
  exact ⟨rfl, by omega, slotAt_limbOffset r hj⟩

theorem checkAccess_inside {W addr : Nat} (h4 : addr % 4 = 0) (h : addr < 0x100 + 32 * Config.limbs W) :
    ∃ slot, checkAccess W 4 addr = .ok slot := by
  cases hs : slotAt (Config.limbs W) addr with
  | none => rw [slotAt_eq_none_iff] at hs; omega
  | some slot => exact ⟨slot, (checkAccess_ok_iff _ _ _ _).2 ⟨rfl, h4, hs⟩⟩

theorem size_of_checkAccess {W size addr : Nat} {slot : Slot} (h : checkAccess W size addr = .ok slot) : size = 4 :=
  ((checkAccess_ok_iff _ _ _ _).1 h).1

theorem addr_of_checkAccess_cmd {W size addr : Nat} (h : checkAccess W size addr = .ok .cmd) : addr = 0x000 := by
  obtain ⟨-, -, h⟩ := (checkAccess_ok_iff _ _ _ _).1 h
  unfold slotAt at h
  split_ifs at h <;> simp_all

theorem addr_of_checkAccess_ctrl {W size addr : Nat} (h : checkAccess W size addr = .ok .ctrl) : addr = 0x008 := by
  obtain ⟨-, -, h⟩ := (checkAccess_ok_iff _ _ _ _).1 h
  unfold slotAt at h
  split_ifs at h <;> simp_all

theorem addr_of_checkAccess_limb {W size addr j : Nat} {r : Reg} (h : checkAccess W size addr = .ok (.limb r j)) :
    j < Config.limbs W ∧ addr = 0x100 + 4 * (r.val * Config.limbs W + j) := by
  obtain ⟨-, h4, h⟩ := (checkAccess_ok_iff _ _ _ _).1 h
  exact slotAt_eq_limb h4 h

theorem testBit_bitsOf (v lo width i : Nat) :
    (bitsOf v lo width).testBit i = (decide (i < width) && v.testBit (lo + i)) := by
  unfold bitsOf
  rw [Nat.testBit_mod_two_pow, Nat.testBit_div_two_pow, Nat.add_comm]

theorem testBit_setBits (v lo width u i : Nat) :
    (setBits v lo width u).testBit i =
      if i < lo then v.testBit i else if i < lo + width then u.testBit (i - lo) else v.testBit i := by
  have hlow : v % 2 ^ lo < 2 ^ lo := Nat.mod_lt _ (by positivity)
  have hmid : u % 2 ^ width < 2 ^ width := Nat.mod_lt _ (by positivity)
  have hform : setBits v lo width u =
      2 ^ lo * (2 ^ width * (v / 2 ^ (lo + width)) + u % 2 ^ width) + v % 2 ^ lo := by
    unfold setBits; rw [pow_add]; ring
  rw [hform, Nat.testBit_two_pow_mul_add _ hlow]
  split
  · rename_i h; rw [Nat.testBit_mod_two_pow]; simp [h]
  · rename_i h
    rw [Nat.testBit_two_pow_mul_add _ hmid]
    by_cases h2 : i < lo + width
    · rw [if_pos (by omega), if_pos h2, Nat.testBit_mod_two_pow]; simp; omega
    · rw [if_neg (by omega), if_neg h2, Nat.testBit_div_two_pow]
      congr 1; omega

theorem setBits_lt {v lo width u W : Nat} (hv : v < 2 ^ W) (h : lo + width ≤ W) : setBits v lo width u < 2 ^ W := by
  refine Nat.lt_pow_two_of_testBit _ fun i hi => ?_
  rw [testBit_setBits, if_neg (by omega), if_neg (by omega)]
  exact Nat.testBit_lt_two_pow (lt_of_lt_of_le hv (Nat.pow_le_pow_right (by omega) hi))

/-- Reading the field just written gives the low bits of what was written. -/
theorem bitsOf_setBits_same (v lo width u : Nat) : bitsOf (setBits v lo width u) lo width = u % 2 ^ width := by
  refine Nat.eq_of_testBit_eq fun i => ?_
  rw [testBit_bitsOf, testBit_setBits, Nat.testBit_mod_two_pow]
  by_cases h : i < width
  · rw [if_neg (by omega), if_pos (by omega)]; simp [h]
  · simp [h]

/-- Reading a field that does not meet the one written gives what it gave. -/
theorem bitsOf_setBits_other {v lo width u lo' width' : Nat} (h : lo' + width' ≤ lo ∨ lo + width ≤ lo') :
    bitsOf (setBits v lo width u) lo' width' = bitsOf v lo' width' := by
  refine Nat.eq_of_testBit_eq fun i => ?_
  rw [testBit_bitsOf, testBit_bitsOf, testBit_setBits]
  by_cases hi : i < width'
  · rcases h with h | h
    · rw [if_pos (by omega)]
    · rw [if_neg (by omega), if_neg (by omega)]
  · simp [hi]

/-- Every limb below `L` ends at or below bit `W - 1`. -/
theorem limbWidth_le {W j : Nat} (hj : j < Config.limbs W) : 32 * j + limbWidth W j ≤ W := by
  unfold Config.limbs at hj; unfold limbWidth; omega

theorem limbWidth_le_32 (W j : Nat) : limbWidth W j ≤ 32 := by unfold limbWidth; omega

/-- The limb read as a natural number. -/
theorem readLimb_toNat (W : Nat) (s : State) (r : Reg) (j : Nat) :
    (readLimb W s r j).toNat = bitsOf (readReg s r) (32 * j) (limbWidth W j) := by
  unfold readLimb
  rw [BitVec.toNat_ofNat, Nat.mod_eq_of_lt]
  refine lt_of_lt_of_le (Nat.mod_lt _ (by positivity)) (Nat.pow_le_pow_right (by omega) (limbWidth_le_32 W j))

end Sys2Proof.Machine
end

