-- ==== Sys2Proof/Laws/Invariant.lean ====
section
/-! SUPPORT. Each operation on the state keeps the invariant, one lemma an operation. -/

namespace Sys2Proof.Machine

/-- The canonical form of a register's undefined limbs: below `L`, rising. -/
def wfLimbs (L : Nat) (m : List Nat) : Prop := (∀ j ∈ m, j < L) ∧ m.Pairwise (· < ·)

theorem wfLimbs_nil (L : Nat) : wfLimbs L [] := ⟨fun _ h => absurd h List.not_mem_nil, .nil⟩

theorem wfLimbs_range (L : Nat) : wfLimbs L (List.range L) := ⟨fun _ h => List.mem_range.1 h, List.pairwise_lt_range⟩

theorem wfLimbs_filter {L : Nat} {m : List Nat} (h : wfLimbs L m) (j : Nat) : wfLimbs L (m.filter fun k => k != j) :=
  ⟨fun _ hk => h.1 _ (List.mem_of_mem_filter hk), h.2.filter _⟩

theorem Inv.wf {W : Nat} {s : State} (hs : Inv W s) (r : Reg) : wfLimbs (Config.limbs W) (undefLimbs s r) :=
  ⟨hs.undefBelow r, hs.undefRising r⟩

/-- The invariant does not look at the turns to come, at the host's record, at the counter of free values or at the
number of the draw. -/
theorem Inv.of_fields {W : Nat} {s t : State} (hs : Inv W s) (hx : t.x = s.x) (hd : t.undef = s.undef)
    (hst : t.status = s.status) (hp : t.pend = s.pend) (ha : t.answers = s.answers) : Inv W t where
  regBelow r := by rw [readReg_congr hx]; exact hs.regBelow r
  undefBelow r := by rw [undefLimbs_congr hd]; exact hs.undefBelow r
  undefRising r := by rw [undefLimbs_congr hd]; exact hs.undefRising r
  busyPend := by rw [hst, hp]; exact hs.busyPend
  busyFlags := by rw [hst]; exact hs.busyFlags
  idleFlags := by rw [hst]; exact hs.idleFlags
  errVerdict := by rw [hst]; exact hs.errVerdict
  idleAnswers := by rw [hst, ha]; exact hs.idleAnswers
  answersBelow := by rw [ha]; exact hs.answersBelow

/-- A status a command may end with, or a reset leaves. -/
def Status.idle (st : Status) : Prop :=
  st.busy = false ∧ (st.done = false → st = Status.reset) ∧ (st.err ≠ .noError → st.v = false)

theorem statusDone_idle (b : Bool) : (statusDone b).idle := ⟨rfl, (by simp [statusDone]), fun h => absurd rfl h⟩

theorem statusFailed_idle (e : ErrCode) : (statusFailed e).idle := ⟨rfl, (by simp [statusFailed]), fun _ => rfl⟩

theorem Status.reset_idle : Status.reset.idle := ⟨rfl, fun _ => rfl, fun _ => rfl⟩

/-- Ending a command keeps the invariant. -/
theorem inv_finish {W : Nat} {s : State} {st : Status} (hreg : ∀ r, readReg s r < 2 ^ W)
    (hundef : ∀ r, wfLimbs (Config.limbs W) (undefLimbs s r)) (hst : st.idle) : Inv W (finish st s) where
  regBelow := hreg
  undefBelow r := (hundef r).1
  undefRising r := (hundef r).2
  busyPend := hst.1
  busyFlags h := by simp [hst.1] at h
  idleFlags _ := hst.2.1
  errVerdict := hst.2.2
  idleAnswers _ := rfl
  answersBelow := by simp

theorem inv_fail {W : Nat} {s : State} (hs : Inv W s) (e : ErrCode) : Inv W (fail e s) :=
  inv_finish hs.regBelow hs.wf (statusFailed_idle e)

theorem inv_doneVerdict {W : Nat} {s : State} (hs : Inv W s) (b : Bool) : Inv W (doneVerdict b s) :=
  inv_finish hs.regBelow hs.wf (statusDone_idle b)

theorem inv_doneWrite {W : Nat} {s : State} (hs : Inv W s) (rd : Reg) {v : Nat} (hv : v < 2 ^ W) :
    Inv W (doneWrite rd v s) := by
  refine inv_finish (fun r => ?_) (fun r => ?_) (statusDone_idle false)
  · rw [writeReg, readReg_of_set rfl]
    split
    · exact hv
    · exact hs.regBelow r
  · rw [writeReg, undefLimbs_of_set rfl]
    split
    · exact wfLimbs_nil _
    · exact hs.wf r

theorem inv_acceptCommand {W : Nat} {s : State} (hs : Inv W s) (w : Word) : Inv W (acceptCommand w s) where
  regBelow := hs.regBelow
  undefBelow := hs.undefBelow
  undefRising := hs.undefRising
  busyPend := rfl
  busyFlags _ := rfl
  idleFlags h := by cases h
  errVerdict h := absurd rfl h
  idleAnswers h := by cases h
  answersBelow := hs.answersBelow

theorem inv_clearSequencer {W : Nat} {s : State} (hreg : ∀ r, readReg s r < 2 ^ W)
    (hundef : ∀ r, wfLimbs (Config.limbs W) (undefLimbs s r)) : Inv W (clearSequencer s) :=
  (inv_finish hreg hundef Status.reset_idle).of_fields rfl rfl rfl rfl rfl

theorem inv_softReset {W : Nat} {s : State} (hs : Inv W s) : Inv W (softReset W s) := by
  obtain ⟨-, h⟩ | ⟨rd, -, h⟩ := softReset_cases W s
  · rw [h]; exact inv_clearSequencer hs.regBelow hs.wf
  · rw [h]
    refine inv_clearSequencer (fun r => ?_) (fun r => ?_)
    · rw [readReg_forgetReg]
      split
      · exact Nat.mod_lt _ (by positivity)
      · exact hs.regBelow r
    · rw [undefLimbs_forgetReg]
      split
      · exact wfLimbs_range _
      · exact hs.wf r

theorem inv_hardReset (W : Nat) (s : State) : Inv W (hardReset W s) := by
  refine inv_clearSequencer (fun r => ?_) (fun r => ?_)
  · have := readReg_hardReset W s r
    rw [hardReset, readReg_clearSequencer] at this
    rw [this]
    exact Nat.mod_lt _ (by positivity)
  · have := undefLimbs_hardReset W s r
    rw [hardReset, undefLimbs_clearSequencer] at this
    rw [this]
    exact wfLimbs_range _

theorem inv_writeLimb {W j : Nat} {s : State} (hs : Inv W s) (r : Reg) (hj : j < Config.limbs W) (v : Word) :
    Inv W (writeLimb W s r j v) where
  regBelow q := by
    rw [readReg_writeLimb]
    split
    · exact setBits_lt (hs.regBelow r) (limbWidth_le hj)
    · exact hs.regBelow q
  undefBelow q := by
    rw [undefLimbs_writeLimb]
    split
    · exact (wfLimbs_filter (hs.wf r) j).1
    · exact hs.undefBelow q
  undefRising q := by
    rw [undefLimbs_writeLimb]
    split
    · exact (wfLimbs_filter (hs.wf r) j).2
    · exact hs.undefRising q
  busyPend := hs.busyPend
  busyFlags := hs.busyFlags
  idleFlags := hs.idleFlags
  errVerdict := hs.errVerdict
  idleAnswers := hs.idleAnswers
  answersBelow := hs.answersBelow

theorem inv_readSlot {W : Nat} {s : State} (hs : Inv W s) (slot : Slot) : Inv W (readSlot W slot s) := by
  obtain ⟨v, -, h⟩ | ⟨-, h⟩ := readSlot_cases W slot s <;> rw [h] <;> exact hs.of_fields rfl rfl rfl rfl rfl

theorem inv_rngAnswer {W : Nat} {s : State} (hs : Inv W s) (draw r : Nat) : Inv W (rngAnswer W draw r s) := by
  obtain ⟨hw, -, h⟩ | ⟨-, h⟩ := rngAnswer_cases W draw r s
  · have hb : s.status.busy = true := by
      unfold awaitsAnswer rngRequest at hw
      split at hw
      · assumption
      · cases hw
    rw [h]
    refine { hs with idleAnswers := fun h => by simp [hb] at h, answersBelow := fun a ha => ?_ }
    rcases List.mem_append.mp ha with ha | ha
    · exact hs.answersBelow a ha
    · rw [List.mem_singleton.mp ha]; exact Nat.mod_lt _ (by positivity)
  · rw [h]; exact hs

theorem inv_hostPoll {W : Nat} {s : State} (hs : Inv W s) (between : List (List OtherTurn)) (rest : List Event) :
    Inv W (hostPoll W between rest s) := by
  rw [hostPoll_eq]
  exact hs.of_fields rfl rfl rfl rfl rfl

end Sys2Proof.Machine
end

