-- ==== Sys2Proof/Laws/PerInstr.lean ====
section
/-! SUPPORT. A fact about every command as syntax, one lemma a constructor: its word carries its operation code. -/

namespace Sys2Proof.Laws

/-- The family `OpField`: bits 31:28 of a well-formed command's word are its operation code. -/
def OpField.Statement (i : Instr) : Prop := i.wellFormed = true → fieldOp (encode i) = opcode i

theorem OpField.modmul (rd ra rb rn : Reg) : OpField.Statement (.modmul rd ra rb rn) := fun _ =>
  (fields_formatC 1 rd ra rb rn 0 (by omega) (by omega)).1

theorem OpField.modexp (rd ra rb rn : Reg) : OpField.Statement (.modexp rd ra rb rn) := fun _ =>
  (fields_formatC 2 rd ra rb rn 0 (by omega) (by omega)).1

theorem OpField.modinv (rd ra rn : Reg) : OpField.Statement (.modinv rd ra rn) := fun _ =>
  (fields_formatC 3 rd ra 0 rn 0 (by omega) (by omega)).1

theorem OpField.tdiv (rn : Reg) : OpField.Statement (.tdiv rn) := fun _ =>
  (fields_formatC 4 0 0 0 rn 0 (by omega) (by omega)).1

theorem OpField.mrround (rn ra : Reg) : OpField.Statement (.mrround rn ra) := fun _ =>
  (fields_formatC 5 0 ra 0 rn 0 (by omega) (by omega)).1

theorem OpField.ptest (rn : Reg) (rounds : Nat) : OpField.Statement (.ptest rn rounds) := fun h =>
  (fields_formatC 6 0 0 0 rn rounds (by omega) (by simpa [Instr.wellFormed] using h)).1

end Sys2Proof.Laws
end

