-- ==== Sys2Proof/Laws/Primality.lean ====
section
/-! SUPPORT. The engine's witness test against the mathematical one of Safety.lean. -/

namespace Sys2Proof.Machine

/-- `MRPass`, which asks for any decomposition of `n - 1`, is what the engine computes with its own. -/
theorem mrPass_iff {n a : Nat} (hn : 2 ≤ n) : MRPass n a ↔ witnessPasses n a = true := by
  rw [witnessPasses_iff n a hn]
  constructor
  · rintro ⟨s, t, h, ht, hp⟩
    rw [decompose_eq hn h ht]
    exact hp
  · intro h
    obtain ⟨h1, h2⟩ := decompose_spec n hn
    exact ⟨_, _, h1, h2, h⟩

theorem goodAnswer_iff {n a : Nat} (hn : 2 ≤ n) : GoodAnswer n a ↔ goodWitness n a := by
  unfold GoodAnswer goodWitness
  rw [mrPass_iff hn]

end Sys2Proof.Machine
end

