-- ==== Sys2Proof/Tests/Slice0.lean ====
section
/-! SUPPORT. Tests of one step each, with the results of 95_test_vectors.md (calculated from the rules by the spec, not by this
model), and for every obligation with hypotheses a witness that meets them. -/

namespace Sys2Proof.Tests

set_option Elab.async false

open Sys2Proof Sys2Proof.Machine

/-- An idle NTE whose registers are defined and hold `xs` (0 where the list ends). -/
def idle (xs : List Nat) : State where
  x := Vector.ofFn fun r : Fin 8 => xs.getD r.val 0
  undef := Vector.replicate 8 []
  status := Status.reset
  pend := none
  answers := []
  draws := 0
  fresh := 0
  agenda := []
  reads := []

/-- The same with the word `w` accepted and, for a PTEST, the answers the port has given. -/
def pending (xs : List Nat) (w : Word) (answers : List Nat) : State :=
  { idle xs with status := statusBusy, pend := some w, answers := answers }

/-- The next state of an outcome. -/
def nextOf (o : Host.Outcome State Fault Refusal) : Option State :=
  match o with
  | .next t => some t
  | .fault _ => none
  | .refused _ => none

/-- What a command leaves in register `r`, and STATUS as the host reads it. -/
def runs (i : Instr) (s : State) (r : Reg) : Option (Nat × Word) :=
  (nextOf (exec i s)).map fun t => (readReg t r, statusWord t.status)

/-! WellFormed. -/

/-- 30_encoding.md R54: a round count above 16 bits has no encoding. -/
theorem test_rounds_too_large : (Instr.ptest 1 65536).wellFormed = false := by decide +kernel
theorem test_rounds_largest : (Instr.ptest 1 65535).wellFormed = true := by decide +kernel
theorem test_others_well_formed :
    (Instr.modmul 7 7 7 7).wellFormed && (Instr.modexp 0 1 2 3).wellFormed && (Instr.modinv 4 1 0).wellFormed &&
      (Instr.tdiv 7).wellFormed && (Instr.mrround 1 2).wellFormed = true := by decide +kernel

/-! Decoding: words written out from the fields of 30_encoding.md R51, `op rd ra rb rn imm`. -/

theorem test_decode_modmul : decode (0b0001#4 ++ 0b110#3 ++ 0b101#3 ++ 0b011#3 ++ 0b000#3 ++ 0#16) =
    .ok (.modmul 6 5 3 0) := by decide +kernel
theorem test_decode_modexp : decode (0b0010#4 ++ 0b011#3 ++ 0b001#3 ++ 0b010#3 ++ 0b000#3 ++ 0#16) =
    .ok (.modexp 3 1 2 0) := by decide +kernel
theorem test_decode_modinv : decode (0b0011#4 ++ 0b100#3 ++ 0b001#3 ++ 0b000#3 ++ 0b000#3 ++ 0#16) =
    .ok (.modinv 4 1 0) := by decide +kernel
theorem test_decode_tdiv : decode (0b0100#4 ++ 0b000#3 ++ 0b000#3 ++ 0b000#3 ++ 0b001#3 ++ 0#16) =
    .ok (.tdiv 1) := by decide +kernel
theorem test_decode_mrround : decode (0b0101#4 ++ 0b000#3 ++ 0b010#3 ++ 0b000#3 ++ 0b001#3 ++ 0#16) =
    .ok (.mrround 1 2) := by decide +kernel
theorem test_decode_ptest : decode (0b0110#4 ++ 0b000#3 ++ 0b000#3 ++ 0b000#3 ++ 0b001#3 ++ 20#16) =
    .ok (.ptest 1 20) := by decide +kernel

/-- V-ENC-10. -/
theorem test_decode_illegal :
    ([0x00000000, 0x70000000, 0xF0000000, 0x10000001, 0x2000FFFF, 0x38480000, 0x42010000, 0x41010000, 0x40090000,
      0x50090000, 0x52010000, 0x62010000, 0x60410000, 0x60090000].all fun w =>
        match decode w with
        | .ok _ => false
        | .error _ => true) = true := by decide +kernel

/-- 20_memory.md R35: bytes `0x00 0x00 0x58 0x1D` on a byte bus are `0x1D580000`. -/
theorem test_decode_bytes : decodeBytes [0x00, 0x00, 0x58, 0x1D, 0xFF] = some (.ok (.modmul 6 5 3 0), [0xFF]) := by decide +kernel

/-- The host's question: the table's `MODMUL` word with all operand bits 0. -/
theorem test_table_word : decodeTableWord 32 0x10000000 = some (.modmul 0 0 0 0) := by decide +kernel

/-! Commands, at most two vectors each. -/

/-- V-MM-8: full width. -/
theorem test_modmul_full_width :
    runs (.modmul 3 0 1 2) (idle [0xFFFFFFFFFFFFFFFF, 0xFFFFFFFFFFFFFFFF, 0xFFFFFFFFFFFFFFC5]) 3 =
      some (0xD24, 0x02) := by decide +kernel

/-- V-MM-5: modulus 0 leaves the destination. -/
theorem test_modmul_modulus_zero : runs (.modmul 3 0 1 2) (idle [5, 5, 0, 77]) 3 = some (77, 0x42) := by
  decide +kernel

/-- V-ME-14: full width. -/
theorem test_modexp_full_width :
    runs (.modexp 3 0 1 2) (idle [0xFFFFFFFFFFFFFFFF, 0xFFFFFFFFFFFFFFFF, 0xFFFFFFFFFFFFFFC5]) 3 =
      some (0x44D4C86A1C084F2C, 0x02) := by decide +kernel

/-- V-ME-4, V-ME-3: exponent 0, modulus 1 and modulus 7. -/
theorem test_modexp_exponent_zero :
    runs (.modexp 3 0 1 2) (idle [5, 0, 1, 77]) 3 = some (0, 0x02) ∧
    runs (.modexp 3 0 1 2) (idle [0, 0, 7, 77]) 3 = some (1, 0x02) := by decide +kernel

/-- V-MI-16: full width. -/
theorem test_modinv_full_width :
    runs (.modinv 3 0 1) (idle [0x123456789ABCDEF0, 0xFFFFFFFFFFFFFFC5]) 3 =
      some (0x4FE97E97E97E97D7, 0x02) := by decide +kernel

/-- V-MI-6, V-MI-15: no inverse, and MODULUS_ZERO before DIVISION_ERROR. -/
theorem test_modinv_errors :
    runs (.modinv 3 0 1) (idle [6, 9, 0, 77]) 3 = some (77, 0x32) ∧
    runs (.modinv 3 0 1) (idle [0, 0, 0, 77]) 3 = some (77, 0x42) := by decide +kernel

/-- V-TD-10, V-TD-14: the first prime above the table, squared, and the last table prime, squared. -/
theorem test_tdiv_squares :
    runs (.tdiv 0) (idle [124609]) 0 = some (124609, 0x06) ∧
    runs (.tdiv 0) (idle [121801]) 0 = some (121801, 0x02) := by decide +kernel

/-- V-TD-1, V-TD-2: 0 and 1. -/
theorem test_tdiv_zero_one :
    runs (.tdiv 0) (idle [0]) 0 = some (0, 0x02) ∧ runs (.tdiv 0) (idle [1]) 0 = some (1, 0x06) := by decide +kernel

/-- V-MR-1, V-MR-5, V-MR-12, V-MR-22: the loop runs to its end, passes at the third squaring, fails after it, and is empty
when `s = 1`. -/
theorem test_mrround_loop :
    runs (.mrround 0 1) (idle [561, 2]) 0 = some (561, 0x02) ∧ runs (.mrround 0 1) (idle [97, 2]) 0 = some (97, 0x06) ∧
    runs (.mrround 0 1) (idle [9, 2]) 0 = some (9, 0x02) ∧
    runs (.mrround 0 1) (idle [2047, 3]) 0 = some (2047, 0x02) := by decide +kernel

/-- V-MR-13, V-MR-15, V-MR-17: the errors. -/
theorem test_mrround_errors :
    runs (.mrround 0 1) (idle [2, 2]) 0 = some (2, 0x52) ∧ runs (.mrround 0 1) (idle [0, 0]) 0 = some (0, 0x22) ∧
    runs (.mrround 0 1) (idle [97, 97]) 0 = some (97, 0x52) := by decide +kernel

/-- V-PT-6, V-PT-6b, V-PT-4b: a liar then an honest witness, three liars, an answer out of range. -/
theorem test_ptest_answers :
    runs (.ptest 0 3) (pending [561] 0x60000003 [50, 2]) 0 = some (561, 0x02) ∧
    runs (.ptest 0 3) (pending [561] 0x60000003 [50, 101, 560]) 0 = some (561, 0x06) ∧
    runs (.ptest 0 3) (pending [3] 0x60000003 [2, 3]) 0 = some (3, 0x52) := by decide +kernel

/-- V-PT-1, V-PT-11, V-RS-3: `n = 2` needs no draw, `n < 2` is tested before `rounds`, a missing answer leaves BUSY. -/
theorem test_ptest_no_answers :
    runs (.ptest 0 20) (pending [2] 0x60000014 []) 0 = some (2, 0x06) ∧
    runs (.ptest 0 0) (pending [0] 0x60000000 []) 0 = some (0, 0x22) ∧
    runs (.ptest 0 20) (pending [97] 0x60000014 []) 0 = some (97, 0x01) := by decide +kernel

/-- 10_state.md R22: the table against a sieve. -/
theorem test_table_is_sieve :
    smallPrimes = (List.range 350).filter fun p => decide (2 ≤ p) && (List.range p).all fun d => d < 2 || p % d != 0 := by
  decide +kernel

/-- 60_exceptions.md R119: the strict step finds an undefined source before any operand is tested; here the modulus 0 would
fail. -/
theorem test_undefined_source :
    (match strictStepAt 64 { pending [0, 0, 0, 14, 0, 4] 0x1D580000 [] with undef := Vector.replicate 8 [0] } with
      | .fault f => some f
      | _ => none) = some (.undefinedSource 5) := by decide +kernel

/-- 10_state.md R21, "The hardware computes with whatever bits a register holds": the step of the same state goes on, and
reports the modulus 0. -/
theorem test_undefined_source_runs :
    (nextOf (step { pending [0, 0, 0, 14, 0, 4] 0x1D580000 [] with undef := Vector.replicate 8 [0] })).map
      (fun t => statusWord t.status) = some 0x42 := by decide +kernel

/-! The host window and the step. -/

/-- V-HW-7, the polls of its `WAIT`: STATUS reads 1, the engine completes the MODINV, STATUS reads 2. -/
theorem test_wait :
    (match Sys2Proof.core.run 3 { pending [23, 10] 0x38400000 [] with agenda := [.poll []] } with
      | .next t => some (t.reads, readReg t 4, t.agenda)
      | _ => none) = some ([0x00000001, 0x00000002], 7, []) := by decide +kernel

/-- V-HW-2. -/
theorem test_config : configWord 64 = 0x14680040 ∧ configWord 257 = 0x14680101 := by decide +kernel

/-- V-HW-3, for the upper limb. -/
theorem test_write_limb :
    (nextOf (hostWrite 64 4 0x10C 0x00000001 (idle [0, 2]))).map (fun t => readReg t 1) = some 0x0000000100000002 := by
  decide +kernel

/-- V-HW-9: the top limb of a 40-bit register. -/
theorem test_top_limb :
    (nextOf (hostWrite 40 4 0x104 0xFFFFFFFF (idle []))).map (fun t => readLimb 40 t 0 1) = some 0x000000FF := by
  decide +kernel

/-- V-HW-7: a limb write and a command are lost while BUSY. -/
theorem test_lost_while_busy :
    nextOf (hostWrite 64 4 0x100 99 (pending [23, 10] 0x38400000 [])) = some (pending [23, 10] 0x38400000 []) ∧
    nextOf (hostWrite 64 4 0x000 0x40000000 (pending [23, 10] 0x38400000 [])) =
      some (pending [23, 10] 0x38400000 []) := by decide +kernel

/-- V-HW-8: an illegal word at the engine's turn. -/
theorem test_illegal_word :
    (nextOf (step (pending [23] 0x00000000 []))).map (fun t => (statusWord t.status, t.x)) =
      some (0x12, (idle [23]).x) := by decide +kernel

/-- V-RS-1: soft reset keeps registers. -/
theorem test_soft_reset_idle :
    (nextOf (hostWrite 64 4 0x008 1 (idle [23]))).map (fun t => (statusWord t.status, readReg t 0, regDefined t 0)) =
      some (0x00, 23, true) := by decide +kernel

/-- V-RS-2: soft reset of a MODINV leaves its destination undefined and keeps its source. -/
theorem test_soft_reset_abort :
    (nextOf (hostWrite 64 4 0x008 1 (pending [23, 10, 0, 0, 5] 0x38400000 []))).map
      (fun t => (statusWord t.status, regDefined t 4, readReg t 1, regDefined t 1)) = some (0x00, false, 10, true) := by
  decide +kernel

/-- 70_reset_and_hazards.md R136: a PTEST waits for draw 0 and is aborted; a new one waits for draw 1; the late answer to draw 0
is discarded, the answer to draw 1 is kept. -/
theorem test_late_answer :
    (match Sys2Proof.core.run 4
        { pending [97] 0x60000014 [] with
          agenda := [.host (.write 4 0x008 1), .host (.write 4 0x000 0x60000014), .rng 0 5, .rng 1 7] } with
      | .next t => some (t.status.busy, t.draws, t.answers.length)
      | _ => none) = some (true, 2, 1) := by decide +kernel

/-- V-RS-5: bit 0 of `CTRL` is the only one. -/
theorem test_ctrl_bit_one :
    nextOf (hostWrite 64 4 0x008 0x00000002 (idle [23])) = some (idle [23]) := by decide +kernel

/-- 70_reset_and_hazards.md R135: the marks of every register are gone after a hard reset. -/
theorem test_hard_reset :
    (nextOf (hostAct 64 .hardReset (pending [23] 0x40000000 []))).map
      (fun t => (statusWord t.status, t.pend, regDefined t 0)) = some (0x00, none, false) := by decide +kernel

/-- A table word runs as the first command after reset: `TDIV x0` on the 0 the model names. -/
theorem test_fetch_word :
    (nextOf (step (State.reset.withFetchWord 32 0x40000000))).map (fun t => statusWord t.status) = some 0x02 := by decide +kernel

/-! Witnesses: for each obligation with hypotheses, a state and operands that meet them, for each clause at the boundary. -/

/-- The invariant on a concrete state, field by field. -/
theorem inv_pending : Inv 64 (pending [97] 0x60000014 []) :=
  ⟨by decide +kernel, by decide +kernel, by decide +kernel, by decide +kernel, by decide +kernel, by decide +kernel,
    by decide +kernel, by decide +kernel, by decide +kernel⟩

theorem inv_failed : Inv 64 { idle [97] with status := statusFailed .modulusZero } :=
  ⟨by decide +kernel, by decide +kernel, by decide +kernel, by decide +kernel, by decide +kernel, by decide +kernel,
    by decide +kernel, by decide +kernel, by decide +kernel⟩

/-- A `MODMUL x6, x5, x3, x0` whose second source has one limb that nothing has written. -/
def halfDefined : State :=
  { pending [23, 0, 0, 14, 0, 4] 0x1D580000 [] with undef := Vector.ofFn fun r : Fin 8 => if r = 3 then [1] else [] }

theorem inv_halfDefined : Inv 64 halfDefined :=
  ⟨by decide +kernel, by decide +kernel, by decide +kernel, by decide +kernel, by decide +kernel, by decide +kernel,
    by decide +kernel, by decide +kernel, by decide +kernel⟩

/-- An idle machine of the configured width, every register defined and `v`. -/
def filled (v : Nat) (turns : List Event) : State :=
  { State.reset with
    x := Vector.replicate 8 v, undef := Vector.replicate 8 [], agenda := turns }

theorem inv_filled {v : Nat} (hv : v < 2 ^ Config.width) (turns : List Event) : Inv Config.width (filled v turns) where
  regBelow r := by simpa [readReg, filled] using hv
  undefBelow r := by simp [undefLimbs, filled]
  undefRising r := by simp [undefLimbs, filled]
  busyPend := rfl
  busyFlags h := by cases h
  idleFlags _ _ := rfl
  errVerdict _ := rfl
  idleAnswers _ := rfl
  answersBelow := by simp [filled, State.reset]

theorem three_lt_two_pow_width : 3 < 2 ^ Config.width :=
  calc 3 < 2 ^ 2 := by decide
    _ ≤ 2 ^ Config.width := Nat.pow_le_pow_right (by decide) (by simp [Config.width])

/-- The same with 0 in every register. -/
def zeroed (turns : List Event) : State := filled 0 turns

theorem inv_zeroed (turns : List Event) : Inv Config.width (zeroed turns) := inv_filled (Nat.two_pow_pos _) turns

/-- Every register `v`, a word accepted and a `WAIT` next. -/
def waiting (v : Nat) (w : Word) : State := acceptCommand w (filled v [.poll []])

theorem inv_waiting {v : Nat} (hv : v < 2 ^ Config.width) (w : Word) : Inv Config.width (waiting v w) :=
  inv_acceptCommand (inv_filled hv _) w

/-- V-PT-4: the one witness of 3 (42_primality.md R88). -/
theorem good_two_for_three : GoodAnswer 3 2 := (goodAnswer_iff (by decide)).2 ⟨by decide, by decide, by decide +kernel⟩

/-- V-PT-6: 50 is a liar of 561. -/
theorem good_liar : GoodAnswer 561 50 := (goodAnswer_iff (by decide)).2 ⟨by decide, by decide, by decide +kernel⟩

/-- V-MR-1: 2 proves 561 composite. -/
theorem honest_witness : ¬ MRPass 561 2 := by
  rw [mrPass_iff (by decide)]
  decide +kernel

theorem witness_DecodeOfEncode : (Instr.ptest 7 65535).wellFormed = true := by decide +kernel
theorem witness_EncodeOfDecode : decode 0x6007FFFF = .ok (.ptest 7 65535) := by decide +kernel
theorem witness_IllegalWordsFail :
    decode 0x00000000 = .error .noSuchOp ∧ decode 0x60090000 = .error .reservedField ∧
      (idle []).status.busy = false := by decide +kernel
theorem witness_ModsqrIsSquare : readReg (idle [1]) 0 ≠ 0 := by decide +kernel
theorem witness_StepRunsDecodedCommand :
    (pending [97] 0x40000000 []).status.busy = true ∧ (pending [97] 0x40000000 []).pend = some 0x40000000 ∧
      decode 0x40000000 = .ok (.tdiv 0) ∧
      (pending [97] 0x40000000 []).agenda = [] ∧
      ({ pending [97] 0x40000000 [] with agenda := [.engine] } : State).agenda = .engine :: [] := by decide +kernel
theorem witness_UndefinedSourceFaults :
    (halfDefined.status.busy = true ∧ halfDefined.pend = some 0x1D580000 ∧ decode 0x1D580000 = .ok (.modmul 6 5 3 0)) ∧
      (sources (.modmul 6 5 3 0) = [5] ++ 3 :: [0] ∧ (∀ q ∈ ([5] : List Reg), regDefined halfDefined q = true) ∧
        regDefined halfDefined 3 = false) ∧
      (∀ r ∈ sources (.tdiv 0), regDefined (pending [97] 0x40000000 []) r = true) ∧
      (pending [97] 0x00000000 []).agenda = [] ∧ decode 0x00000000 = .error .noSuchOp := by decide +kernel
theorem witness_StrictStepAgrees :
    (∃ t, strictStepAt 64 (pending [97] 0x40000000 []) = .next t) ∧
      strictStepAt 64 { idle [] with agenda := [.host (.read 2 0x100)] } = .refused (.accessSize 2) ∧
      strictStepAt 64 { idle [] with status := statusBusy } = .fault (.ofStep .noPending) ∧
      strictStepAt 64 halfDefined = .fault (.undefinedSource 3) := ⟨⟨_, rfl⟩, rfl, rfl, rfl⟩
theorem witness_FetchWordRunsCommand : decodeTableWord 32 0x1D580000 = some (.modmul 6 5 3 0) := by decide +kernel
theorem witness_IdleEngineHoldsState :
    (idle []).status.busy = false ∧ (idle []).agenda = [] ∧
      ({ idle [] with agenda := [.engine] } : State).agenda = .engine :: [] := by decide +kernel
theorem witness_StepTakesOneTurn :
    (∃ t, stepAt 64 { idle [23] with agenda := [.host (.read 4 0x004), .engine] } = .next t) ∧
      (∃ t, stepAt 64 { idle [23] with agenda := [.poll [[.rng 0 2]], .engine] } = .next t) ∧
      ∃ t, stepAt 64 { pending [97] 0x60000014 [] with agenda := [.poll [[.rng 0 2]], .engine] } = .next t :=
  ⟨⟨_, rfl⟩, ⟨_, rfl⟩, _, rfl⟩
theorem witness_ModmulWritesProduct :
    readReg (idle [0]) 0 = 0 ∧ readReg (idle [1]) 0 ≠ 0 ∧ readReg (idle [1]) 0 = 1 ∧
      readReg (idle [1, 0]) 1 = 0 ∧ readReg (idle [23, 0, 0, 14, 0, 4]) 0 = 23 ∧
      readReg (idle [23, 0, 0, 14, 0, 4]) 5 = 4 ∧ readReg (idle [23, 0, 0, 14, 0, 4]) 3 = 14 := by decide +kernel
theorem witness_ModexpWritesPower :
    readReg (idle [0]) 0 = 0 ∧ (readReg (idle [1, 0, 0]) 0 ≠ 0 ∧ readReg (idle [1, 0, 0]) 2 = 0) ∧
      readReg (idle [1]) 0 = 1 ∧ (readReg (idle [7, 0, 1]) 1 = 0 ∧ 0 < readReg (idle [7, 0, 1]) 2) ∧
      readReg (idle [497, 4, 13]) 1 = 4 ∧ readReg (idle [497, 4, 13]) 2 = 13 ∧
      readReg (idle [497, 4, 13]) 0 = 497 := by decide +kernel
theorem witness_ModinvWritesInverse :
    readReg (idle [0]) 0 = 0 ∧
      (readReg (idle [4, 2]) 0 ≠ 0 ∧ Nat.gcd (readReg (idle [4, 2]) 1) (readReg (idle [4, 2]) 0) ≠ 1) ∧
      (readReg (idle [1, 0]) 0 = 1 ∧ Nat.gcd (readReg (idle [1, 0]) 1) (readReg (idle [1, 0]) 0) = 1) ∧
      (readReg (idle [2, 1]) 1 = 1 ∧ 2 ≤ readReg (idle [2, 1]) 0 ∧
        Nat.gcd (readReg (idle [2, 1]) 1) (readReg (idle [2, 1]) 0) = 1) ∧
      (readReg (idle [23, 22]) 1 = readReg (idle [23, 22]) 0 - 1 ∧ 2 ≤ readReg (idle [23, 22]) 0 ∧
        Nat.gcd (readReg (idle [23, 22]) 1) (readReg (idle [23, 22]) 0) = 1) ∧
      (readReg (idle [2, 0]) 1 = 0 ∧ 2 ≤ readReg (idle [2, 0]) 0) ∧
      readReg (idle [23, 10]) 1 = 10 ∧ readReg (idle [23, 10]) 0 = 23 := by decide +kernel
theorem witness_OperandsCountModuloModulus :
    (readReg (idle [7, 3, 2]) 0 = readReg (idle [7, 10, 2]) 0 ∧
      readReg (idle [7, 3, 2]) 2 = readReg (idle [7, 10, 2]) 2 ∧
      readReg (idle [7, 3, 2]) 1 % 7 = readReg (idle [7, 10, 2]) 1 % 7) ∧
    (runs (.modexp 3 1 2 0) (idle [7, 3, 2]) 3 = some (2, 0x02) ∧
      runs (.modexp 3 1 2 0) (idle [7, 10, 2]) 3 = some (2, 0x02)) ∧
    runs (.modinv 3 1 0) (idle [7, 3, 2]) 3 = some (5, 0x02) ∧
      runs (.modinv 3 1 0) (idle [7, 10, 2]) 3 = some (5, 0x02) := by decide +kernel
theorem witness_TdivVerdict :
    readReg (idle [349]) 0 ∈ smallPrimes ∧ readReg (idle []) 0 = 0 ∧ readReg (idle [1]) 0 = 1 ∧
      2 ∣ readReg (idle [2]) 0 ∧ readReg (idle [353]) 0 = 353 ∧ readReg (idle [124609]) 0 = 353 * 353 ∧
      (2 ≤ readReg (idle [353]) 0 ∧ readReg (idle [353]) 0 < 124609 ∧ passesTrialDivision 353 = true) ∧
      readReg (idle [0, 561]) 1 = 561 := by decide +kernel
theorem witness_DecompositionOfPredecessor : 2 ≤ 2 ∧ 2 % 2 = 0 ∧ 2 < 2 ^ 2 := by decide
theorem witness_MrroundVerdict :
    readReg (idle [1, 5]) 0 < 2 ∧
      (2 ≤ readReg (idle [2, 1]) 0 ∧ readReg (idle [2, 1]) 1 < 2) ∧
      (2 ≤ readReg (idle [2, 2]) 0 ∧ readReg (idle [2, 2]) 0 - 1 < readReg (idle [2, 2]) 1) ∧
      (2 ≤ readReg (idle [3, 2]) 1 ∧ readReg (idle [3, 2]) 1 ≤ readReg (idle [3, 2]) 0 - 1 ∧
        readReg (idle [3, 2]) 0 = 3 ∧ readReg (idle [3, 2]) 1 = readReg (idle [3, 2]) 0 - 1) ∧
      (2 ≤ readReg (idle [4, 2]) 1 ∧ readReg (idle [4, 2]) 1 ≤ readReg (idle [4, 2]) 0 - 1 ∧
        readReg (idle [4, 2]) 0 % 2 = 0) ∧
      readReg (idle [2]) 0 = 2 ∧ (0 : Reg) = 0 ∧
      readReg (idle [0, 561, 2]) 1 = 561 ∧ readReg (idle [0, 561, 2]) 2 = 2 := by decide +kernel
theorem witness_PtestFollowsAnswers :
    readReg (idle [1]) 0 < 2 ∧ readReg (idle [2]) 0 = 2 ∧
      (readReg (pending [3] 0x60000001 [2]) 0 = 3 ∧ (pending [3] 0x60000001 [2]).answers.length = 1 ∧
        ∀ a ∈ (pending [3] 0x60000001 [2]).answers.take 1, GoodAnswer 3 a) ∧
      ((pending [3] 0x60000002 [2, 3]).answers = [2] ++ 3 :: [] ∧ [2].length < 2 ∧ (∀ b ∈ [2], GoodAnswer 3 b) ∧
        3 - 1 < 3) ∧
      ((pending [561] 0x60000003 [50, 2]).answers = [50] ++ 2 :: [] ∧ (∀ b ∈ [50], GoodAnswer 561 b) ∧
        2 ≤ 561 - 1 ∧ ¬ MRPass 561 2) ∧
      ((pending [3] 0x60000002 [2]).answers.length < 2 ∧ ∀ a ∈ (pending [3] 0x60000002 [2]).answers, GoodAnswer 3 a) := by
  refine ⟨by decide +kernel, by decide +kernel, ⟨by decide +kernel, rfl, ?_⟩, ⟨rfl, by decide, ?_, by decide⟩,
    ⟨rfl, ?_, by decide, honest_witness⟩, by decide, ?_⟩
  · simpa [pending] using good_two_for_three
  · simpa using good_two_for_three
  · simpa using good_liar
  · simpa [pending] using good_two_for_three

theorem witness_PtestOfTwoAndThree :
    (readReg (pending [2] (encode (.ptest 0 65535)) []) 0 = 2 ∧
      (pending [2] (encode (.ptest 0 65535)) []).pend = some (encode (.ptest 0 65535)) ∧ 65535 < 65536) ∧
    (readReg (pending [3] 0x60000002 [2, 2]) 0 = 3 ∧ 2 ≤ (pending [3] 0x60000002 [2, 2]).answers.length ∧
      ∀ a ∈ (pending [3] 0x60000002 [2, 2]).answers.take 2, a = 2) ∧
    ∃ a ∈ (pending [3] 0x60000002 [2, 3]).answers.take 2, a ≠ 2 := by decide +kernel
theorem witness_PtestWithoutRounds : 2 ≤ readReg (idle [2]) 0 ∧ readReg (idle [1]) 0 < 2 := by decide +kernel
theorem witness_EvenNumbersAreNotRejected :
    (4 ≤ 4 ∧ 4 % 2 = 0 ∧ 2 ≤ 2 ∧ 2 ≤ 4 - 1) ∧
    (4 ≤ readReg (pending [4] 0x60000002 [3, 3]) 0 ∧ readReg (pending [4] 0x60000002 [3, 3]) 0 % 2 = 0 ∧
      2 ≤ (pending [4] 0x60000002 [3, 3]).answers.length ∧
      ∀ a ∈ (pending [4] 0x60000002 [3, 3]).answers.take 2, a = 4 - 1) := by decide +kernel
theorem witness_PrimeAlwaysPasses :
    (Nat.Prime (readReg (idle [3, 2]) 0) ∧ 2 ≤ readReg (idle [3, 2]) 1 ∧
      readReg (idle [3, 2]) 1 ≤ readReg (idle [3, 2]) 0 - 1) ∧
    (Nat.Prime (readReg (pending [5] 0x60000002 [2, 4]) 0) ∧ 2 ≤ (pending [5] 0x60000002 [2, 4]).answers.length ∧
      ∀ a ∈ (pending [5] 0x60000002 [2, 4]).answers.take 2, 2 ≤ a ∧ a ≤ 5 - 1) :=
  ⟨⟨Nat.prime_three, by decide +kernel⟩, Nat.prime_five, by decide +kernel⟩
theorem witness_ErrorsByCommand :
    (idle []).status.err = .noError ∧
    (∃ t, completionStep (pending [] 0x00000000 []) = .next t) ∧
    (∃ t, exec (.modmul 3 0 1 2) (idle [5, 5, 0]) = .next t) ∧ (∃ t, exec (.modexp 3 0 1 2) (idle [5, 5, 1]) = .next t) ∧
    (∃ t, exec (.modinv 3 0 1) (idle [2, 4]) = .next t) ∧ (∃ t, exec (.tdiv 0) (idle []) = .next t) ∧
    (∃ t, exec (.mrround 0 1) (idle [2, 2]) = .next t) ∧ (∃ t, exec (.ptest 0 1) (pending [3] 0x60000001 [3]) = .next t) :=
  ⟨rfl, ⟨_, rfl⟩, exec_next _ _, exec_next _ _, exec_next _ _, exec_next _ _, exec_next _ _, exec_next _ _⟩
theorem witness_FailureChangesOnlyStatus :
    (pending [5, 5, 0] 0x16500000 []).status.err = .noError ∧
    (nextOf (completionStep (pending [0, 5, 5] 0x16500000 []))).map (fun t => t.status.err) = some .modulusZero := by
  decide +kernel
theorem witness_FrameOfWritingCommands :
    (runs (.modmul 3 0 1 2) (idle [5, 5, 7]) 3).isSome ∧ (runs (.modexp 3 0 1 2) (idle [5, 5, 0]) 3).isSome ∧
      (runs (.modinv 3 0 1) (idle [2, 4]) 3).isSome := by decide +kernel
theorem witness_FrameOfVerdictCommands :
    (runs (.tdiv 0) (idle [5]) 3).isSome ∧ (runs (.mrround 0 1) (idle [1, 5]) 3).isSome ∧
      nextOf (exec (.ptest 0 20) (pending [97] 0x60000014 [])) = some (pending [97] 0x60000014 []) := by decide +kernel
theorem witness_OutcomeDependsOnSourcesOnly :
    (∀ r ∈ sources (.modinv 4 1 0), readReg (idle [23, 10, 1]) r = readReg (idle [23, 10, 99]) r) ∧
      (idle [23, 10, 1]).answers = (idle [23, 10, 99]).answers ∧
      (runs (.modinv 4 1 0) (idle [23, 10, 1]) 4).isSome ∧ (runs (.modinv 4 1 0) (idle [23, 10, 99]) 4).isSome := by
  decide +kernel
theorem witness_AliasedModmulGivesZero : 0 < readReg (idle [1]) 0 := by decide +kernel
theorem witness_ConfigWordLayout : 2 ≤ 2 ∧ 2 ≤ 65535 ∧ 65535 ≤ 65535 := by decide
theorem witness_CommandAcceptance :
    (idle []).status.busy = false ∧ (pending [] 0x40000000 []).status.busy = true := by decide +kernel
theorem witness_HostWriteCases :
    2 ≤ 2 ∧ (1 : Word).getLsbD 0 = true ∧
      (0x13C % 4 = 0 ∧ 0x13C < 0x100 + 32 * Config.limbs 64 ∧ (pending [] 0x40000000 []).status.busy = true) ∧
      ((idle []).status.busy = false ∧ 1 < Config.limbs 64) ∧
      (0x010 % 4 = 0 ∧ 0x010 ≤ 0x0FC ∧ 0x0FC < 0x100 ∧ (2 : Word).getLsbD 0 = false) := by decide +kernel
theorem witness_HostReadCases :
    2 ≤ 2 ∧ (0x010 % 4 = 0 ∧ 0x0FC % 4 = 0 ∧ 0x0FC < 0x100) ∧ 1 < Config.limbs 64 ∧
      (pending [] 0x40000000 []).status.busy = true ∧
      limbDefined { idle [] with undef := Vector.replicate 8 [1] } 7 1 = false ∧
      (idle []).status.busy = false ∧ limbDefined (idle []) 7 1 = true := by decide +kernel
theorem witness_AccessesOutsideTheWindowAreRefused :
    2 ≠ 4 ∧ 0x102 % 4 ≠ 0 ∧ (0x140 % 4 = 0 ∧ 0x100 + 32 * Config.limbs 64 ≤ 0x140) ∧
      (0x13C % 4 = 0 ∧ 0x13C < 0x100 + 32 * Config.limbs 64) := by decide
theorem witness_LimbReadsBack :
    1 < Config.limbs 40 ∧ (idle []).status.busy = false ∧
      ∃ t, hostWrite 40 4 (0x100 + 4 * ((7 : Reg).val * Config.limbs 40 + 1)) 0xFFFFFFFF (idle []) = .next t :=
  ⟨by decide, rfl, _, rfl⟩
theorem witness_RegisterIsSumOfLimbs :
    readReg (idle [2 ^ 40 - 1]) 0 < 2 ^ 40 ∧
      (readReg (idle [0, 0x0000000100000002]) 1 = 0x0000000100000002 ∧ (idle []).status.busy = false ∧
        regDefined (idle [0, 0x0000000100000002]) 1 = true) := by decide +kernel
theorem witness_TopLimbIsCut :
    2 ≤ 2 ∧ (40 - 1) % 32 < 8 ∧ (0x1FF : Word).toNat % 2 ^ ((40 - 1) % 32 + 1) = (0x0FF : Word).toNat % 2 ^ ((40 - 1) % 32 + 1) := by
  decide +kernel
theorem witness_WindowIsLittleEndian :
    3 ≤ 3 ∧ readReg (idle [2 ^ 40 - 1]) 0 < 2 ^ 40 ∧ 
      regDefined (idle [2 ^ 40 - 1]) 0 = true ∧ (idle [2 ^ 40 - 1]).status.busy = false ∧
      7 < 4 * Config.limbs 40 := by decide +kernel
theorem witness_RegisterDirectives :
    Inv Config.width (zeroed (directiveTurns Config.width (.wr 0 1) ++ [])) ∧ 1 < 2 ^ Config.width ∧
      Inv Config.width (zeroed (directiveTurns Config.width (.rd 0) ++ [])) ∧
      regDefined (zeroed (directiveTurns Config.width (.rd 0) ++ [])) 0 = true :=
  ⟨inv_zeroed _, Nat.one_lt_two_pow (by simp [Config.width]), inv_zeroed _, by
    simp [regDefined_iff, undefLimbs, zeroed, filled]⟩
theorem witness_WaitPollsUntilIdle :
    (∃ s : State, s.status.busy = false ∧ s.agenda = directiveTurns 64 (.wait [[.rng 0 2]]) ++ [.engine]) ∧
      (∃ s : State, s.status.busy = true ∧ s.agenda = directiveTurns 64 (.wait [[.rng 0 2], []]) ++ [.engine]) ∧
      (Inv Config.width (waiting 3 0x40000000) ∧ (waiting 3 0x40000000).status.busy = true ∧
        (waiting 3 0x40000000).agenda = directiveTurns Config.width (.wait []) ++ [] ∧
        awaitsAnswer (waiting 3 0x40000000) = false) ∧
      Inv Config.width (waiting 3 0x60000014) ∧ (waiting 3 0x60000014).status.busy = true ∧
        (waiting 3 0x60000014).agenda = directiveTurns Config.width (.wait []) ++ [] ∧
        awaitsAnswer (waiting 3 0x60000014) = true :=
  ⟨⟨{ idle [] with agenda := [.poll [[.rng 0 2]], .engine] }, rfl, rfl⟩,
    ⟨{ pending [] 0x40000000 [] with agenda := [.poll [[.rng 0 2], []], .engine] }, rfl, rfl⟩,
    ⟨inv_waiting three_lt_two_pow_width _, rfl, rfl, by decide +kernel⟩,
    inv_waiting three_lt_two_pow_width _, rfl, rfl, by decide +kernel⟩
theorem witness_BusyEngineIsUndisturbed :
    (pending [97] 0x60000014 []).status.busy = true ∧
      (∃ t, hostAct 64 (.write 4 0x100 99) (pending [97] 0x60000014 []) = .next t) ∧
      (∃ t, hostAct 64 (.write 4 0x008 1) (pending [97] 0x60000014 []) = .next t) ∧
      (∃ t, hostAct 64 .hardReset (pending [97] 0x60000014 []) = .next t) := ⟨rfl, ⟨_, rfl⟩, ⟨_, rfl⟩, _, rfl⟩
theorem witness_SoftResetEffect : (1 : Word).getLsbD 0 = true ∧
    (pending [23, 10] 0x38400000 []).status.busy = true ∧ decode 0x38400000 = .ok (.modinv 4 1 0) ∧
    (idle []).status.busy = false := by decide +kernel
theorem witness_StepKeepsInvariant :
    (Inv 64 (pending [97] 0x60000014 []) ∧ ∃ t, stepAt 64 (pending [97] 0x60000014 []) = .next t) ∧
      Inv Config.width (zeroed [.host .hardReset]) ∧ ∃ t, step (zeroed [.host .hardReset]) = .next t :=
  ⟨⟨inv_pending, _, rfl⟩, inv_zeroed _, _, rfl⟩
theorem witness_OnlyMisplacedAccessesStop :
    Inv Config.width (zeroed [.host (.read 2 0x100)]) ∧
      stepAt Config.width (zeroed [.host (.read 2 0x100)]) = .refused (.accessSize 2) := ⟨inv_zeroed _, rfl⟩
/-- An idle state with turns of the engine and of the random-number environment left, as after a `WAIT`. -/
theorem witness_FinishedRunsStayFinished :
    Finished { idle [23] with agenda := [.rng 0 2, .engine] } ∧ ¬ Finished { idle [23] with agenda := [.poll []] } ∧
      (pending [97] 0x40000000 []).status.busy = true ∧ (pending [97] 0x40000000 []).agenda = [] ∧
      (idle [23]).status.busy = false :=
  ⟨⟨by decide, rfl⟩, fun h => absurd h.1 (by decide), rfl, rfl, rfl⟩
theorem witness_OnlyUndefinedSourcesAndMisplacedAccessesStop :
    (Inv Config.width (zeroed [.host (.read 2 0x100)]) ∧
      strictStepAt Config.width (zeroed [.host (.read 2 0x100)]) = .refused (.accessSize 2)) ∧
    Inv 64 halfDefined ∧ strictStepAt 64 halfDefined = .fault (.undefinedSource 3) :=
  ⟨⟨inv_zeroed _, rfl⟩, inv_halfDefined, rfl⟩
theorem witness_ErrorStaysUntilCleared :
    Inv 64 { idle [97] with status := statusFailed .modulusZero, agenda := [.host (.write 4 0x000 0x40000000)] } ∧
      (statusFailed .modulusZero).err ≠ .noError ∧
      (nextOf (stepAt 64
        { idle [97] with
          status := statusFailed .modulusZero, agenda := [.host (.write 4 0x000 0x40000000)] })).map
        (fun t => t.status.err) = some .noError :=
  ⟨inv_failed.of_fields rfl rfl rfl rfl rfl, by decide, by decide +kernel⟩
theorem witness_RegisterChangesOnlyBy :
    (nextOf (stepAt 64 { idle [0] with agenda := [.host (.write 4 0x100 1)] })).map (fun t => readReg t 0) = some 1 ∧
    (nextOf (stepAt 64 (pending [23, 10] 0x38400000 []))).map (fun t => readReg t 4) = some 7 ∧
    (nextOf (stepAt 64
      { pending [23, 10] 0x38400000 [] with agenda := [.host (.write 4 0x008 1)] })).map (fun t => undefLimbs t 4) =
      some [0, 1] ∧
    (nextOf (stepAt 64 { idle [0] with agenda := [.host .hardReset] })).map (fun t => undefLimbs t 0) =
      some [0, 1] := by decide +kernel
theorem witness_AcceptedCommandsComplete :
    Inv 64 (pending [97] 0x60000014 []) ∧ (pending [97] 0x60000000 []).pend = some 0x60000000 ∧
      decode 0x60000000 = .ok (.ptest 0 0) ∧
      0 ≤ (pending [97] 0x60000000 []).answers.length ∧
      (pending [97] 0x00000000 []).pend = some 0x00000000 ∧ decode 0x00000000 = .error .noSuchOp ∧
      awaitsAnswer (pending [97] 0x60000014 []) = true ∧
      (∃ t, stepAt 64 (pending [97] 0x60000014 []) = .next t) :=
  ⟨inv_pending, rfl, by decide +kernel, by decide, rfl, by decide +kernel, by decide +kernel, _, rfl⟩
theorem witness_AnswersWhileRequested :
    rngRequest (pending [97] 0x60000014 []) = some { lo := 2, hi := 96 } ∧ (pending [97] 0x60000014 []).draws = 0 ∧
      rngRequest (pending [97] 0x40000000 []) = none ∧ 1 ≠ (pending [97] 0x60000014 []).draws := by
  decide +kernel
/-- A PTEST aborted while it waits, the next one accepted and waiting, and its predecessor's answer still to come. -/
theorem witness_LateAnswersAreDiscarded :
    1 ≠ (pending [97] 0x60000014 []).draws ∧ (∃ t, stepAt 64 (pending [97] 0x60000014 []) = .next t) ∧
      (1 : Word).getLsbD 0 = true ∧
      (∃ t u, step { waiting 3 0x60000014 with
            agenda := [.host (.write 4 0x008 1), .host (.write 4 0x000 0x60000014)] } = .next t ∧
          Sys2Proof.core.run 1 t = .next u ∧ awaitsAnswer u = true ∧ (waiting 3 0x60000014).draws = 0) ∧
      ∃ t, step { waiting 3 0x60000014 with agenda := [.host .hardReset] } = .next t :=
  ⟨by decide +kernel, ⟨_, rfl⟩, rfl, ⟨_, _, rfl, rfl, by decide +kernel, rfl⟩, _, rfl⟩

end Sys2Proof.Tests
end

/-! # Lemmas and proofs of the statements of 10_state.md

What a command can do by whether it has a destination, the engine's turn, what can stop a step, the strict step by what the
pending command reads, the status and configuration words as numbers, and the state after hard reset; then the statements,
each from these. -/

namespace Sys2Proof.Machine

/-! ## What a command does, by whether it has a destination -/

/-- A command with a destination fails, or writes it with a value below one of its sources, the modulus. -/
theorem exec_cases_of_destination {i : Instr} {rd : Reg} {s t : State} (hd : destination i = some rd)
    (h : exec i s = .next t) :
    (∃ e, e ≠ .noError ∧ t = fail e s) ∨ ∃ rn ∈ sources i, ∃ v < readReg s rn, t = doneWrite rd v s := by
  cases i with
  | modmul rd' ra rb rn =>
    obtain rfl : rd' = rd := Option.some.inj hd
    simp only [exec, execModmul] at h
    split at h <;> rename_i hn <;> cases h
    · exact .inl ⟨_, by decide, rfl⟩
    · exact .inr ⟨rn, by simp [sources], _, Nat.mod_lt _ (Nat.pos_of_ne_zero hn), rfl⟩
  | modexp rd' ra rb rn =>
    obtain rfl : rd' = rd := Option.some.inj hd
    simp only [exec, execModexp] at h
    split at h <;> rename_i hn <;> cases h
    · exact .inl ⟨_, by decide, rfl⟩
    · have hlt : powMod (readReg s ra) (readReg s rb) (readReg s rn) < readReg s rn := by
        rw [powMod_eq _ _ _ (Nat.pos_of_ne_zero hn)]
        exact Nat.mod_lt _ (Nat.pos_of_ne_zero hn)
      exact .inr ⟨rn, by simp [sources], _, hlt, rfl⟩
  | modinv rd' ra rn =>
    obtain rfl : rd' = rd := Option.some.inj hd
    simp only [exec, execModinv] at h
    split at h
    · cases h; exact .inl ⟨_, by decide, rfl⟩
    · rename_i hn
      split at h <;> cases h
      · exact .inl ⟨_, by decide, rfl⟩
      · obtain ⟨-, hlt, -⟩ := extendedEuclid_spec (readReg s ra) (readReg s rn) (Nat.pos_of_ne_zero hn)
        exact .inr ⟨rn, by simp [sources], _, hlt, rfl⟩
  | tdiv rn => cases hd
  | mrround rn ra => cases hd
  | ptest rn rounds => cases hd

/-- A command without a destination fails, or reports a verdict, or is a PTEST that waits and changes nothing. -/
theorem exec_cases_of_no_destination {i : Instr} {s t : State} (hd : destination i = none) (h : exec i s = .next t) :
    (∃ e, t = fail e s) ∨ (∃ b, t = doneVerdict b s) ∨ ((∃ rn rounds, i = .ptest rn rounds) ∧ t = s) := by
  obtain ⟨e, -, ht⟩ | ⟨b, -, ht⟩ | ⟨rd, v, hrd, -⟩ | ⟨rn, rounds, hi, -, ht⟩ := exec_cases h
  · exact .inl ⟨e, ht⟩
  · exact .inr (.inl ⟨b, ht⟩)
  · rw [hd] at hrd; cases hrd
  · exact .inr (.inr ⟨⟨rn, rounds, hi⟩, ht⟩)

/-! ## Each turn keeps the invariant -/

/-- The turns to come are no part of the invariant. -/
theorem Inv.withAgenda {W : Nat} {s : State} (hs : Inv W s) (turns : List Event) : Inv W { s with agenda := turns } :=
  hs.of_fields rfl rfl rfl rfl rfl

theorem inv_exec {W : Nat} {i : Instr} {s t : State} (hs : Inv W s) (h : exec i s = .next t) : Inv W t := by
  cases hd : destination i with
  | some rd =>
    obtain ⟨e, -, rfl⟩ | ⟨rn, -, v, hv, rfl⟩ := exec_cases_of_destination hd h
    · exact inv_fail hs e
    · exact inv_doneWrite hs rd (hv.trans (hs.regBelow rn))
  | none =>
    obtain ⟨e, rfl⟩ | ⟨b, rfl⟩ | ⟨-, rfl⟩ := exec_cases_of_no_destination hd h
    · exact inv_fail hs e
    · exact inv_doneVerdict hs b
    · exact hs

theorem inv_engineTurn {W : Nat} {s t : State} (hs : Inv W s) (h : engineTurn s = .next t) : Inv W t := by
  obtain ⟨-, rfl⟩ | ⟨w, i, -, -, -, he⟩ | ⟨w, e, -, -, -, rfl⟩ := engineTurn_cases h
  · exact hs
  · exact inv_exec hs he
  · exact inv_fail hs _

theorem inv_writeSlot {W size addr : Nat} {slot : Slot} {s : State} (hs : Inv W s)
    (hok : checkAccess W size addr = .ok slot) (v : Word) : Inv W (writeSlot W slot v s) := by
  obtain ⟨-, h⟩ | h | ⟨-, -, h⟩ | ⟨r, j, -, rfl, h⟩ := writeSlot_cases W slot v s <;> rw [h]
  · exact inv_softReset hs
  · exact hs
  · exact inv_acceptCommand hs v
  · exact inv_writeLimb hs r (addr_of_checkAccess_limb hok).1 v

theorem inv_hostAct {W : Nat} {a : HostAction} {s t : State} (hs : Inv W s) (h : hostAct W a s = .next t) : Inv W t := by
  obtain ⟨_, _, slot, -, -, rfl⟩ | ⟨_, _, v, slot, -, hok, rfl⟩ | ⟨-, rfl⟩ := hostAct_cases h
  · exact inv_readSlot hs slot
  · exact inv_writeSlot hs hok v
  · exact inv_hardReset W s

theorem inv_stepAt {W : Nat} {s t : State} (hs : Inv W s) (h : stepAt W s = .next t) : Inv W t := by
  obtain ⟨-, h⟩ | ⟨rest, -, h⟩ | ⟨a, rest, -, h⟩ | ⟨draw, r, rest, -, rfl⟩ | ⟨between, rest, -, rfl⟩ := stepAt_cases h
  · exact inv_engineTurn hs h
  · exact inv_engineTurn (hs.withAgenda rest) h
  · exact inv_hostAct (hs.withAgenda rest) h
  · exact inv_rngAnswer (hs.withAgenda rest) draw r
  · exact inv_hostPoll hs between rest

/-! ## The engine's turn, and what can stop a step -/

theorem engineTurn_of_legal {s : State} {w : Word} {i : Instr} (hb : s.status.busy = true) (hp : s.pend = some w)
    (hi : decode w = .ok i) : engineTurn s = exec i s := by
  simp only [engineTurn, completionStep, hb, hp, hi, if_true]

theorem engineTurn_of_illegal {s : State} {w : Word} {e : Illegal} (hb : s.status.busy = true) (hp : s.pend = some w)
    (he : decode w = .error e) : engineTurn s = .next (failIllegal s) := by
  simp only [engineTurn, completionStep, hb, hp, he, if_true]

/-- The engine's turn goes on: while `BUSY = 1`, `PEND` holds a word (10_state.md R15), legal or not. -/
theorem Inv.engineTurn_next {W : Nat} {s : State} (hs : Inv W s) : ∃ t, engineTurn s = .next t := by
  cases hb : s.status.busy with
  | false => exact ⟨s, by simp [engineTurn, hb]⟩
  | true =>
    obtain ⟨w, hp⟩ := Option.isSome_iff_exists.1 (hs.busyPend.symm.trans hb)
    cases hw : decode w with
    | ok i => rw [engineTurn_of_legal hb hp hw]; exact exec_next i s
    | error e => exact ⟨_, engineTurn_of_illegal hb hp hw⟩

/-- Only a misplaced access is refused (20_memory.md R32, R46). -/
theorem misplaced_of_checkAccess_error {W size addr : Nat} {e : Refusal} (h : checkAccess W size addr = .error e) :
    size ≠ 4 ∨ addr % 4 ≠ 0 ∨ 0x100 + 32 * Config.limbs W ≤ addr := by
  by_contra hc
  obtain ⟨rfl, h4, hlt⟩ : size = 4 ∧ addr % 4 = 0 ∧ addr < 0x100 + 32 * Config.limbs W := by omega
  obtain ⟨slot, hok⟩ := checkAccess_inside h4 hlt
  rw [hok] at h
  cases h

theorem hostAct_ne_fault (W : Nat) (a : HostAction) (s : State) (f : Fault) : hostAct W a s ≠ .fault f := by
  cases a with
  | read size addr => simp only [hostAct, hostRead]; split <;> simp
  | write size addr v => simp only [hostAct, hostWrite]; split <;> simp
  | hardReset => simp [hostAct]

/-- The host's turn is refused only for an access whose check fails. -/
theorem hostAct_refused {W : Nat} {a : HostAction} {s : State} {e : Refusal} (h : hostAct W a s = .refused e) :
    ∃ size addr, (a = .read size addr ∨ ∃ v, a = .write size addr v) ∧ checkAccess W size addr = .error e := by
  cases a with
  | read size addr =>
    simp only [hostAct, hostRead] at h
    split at h <;> cases h
    exact ⟨size, addr, .inl rfl, ‹_›⟩
  | write size addr v =>
    simp only [hostAct, hostWrite] at h
    split at h <;> cases h
    exact ⟨size, addr, .inr ⟨v, rfl⟩, ‹_›⟩
  | hardReset => cases h

/-- From a state that meets the invariant a step goes on, or it is the host's own turn. -/
theorem Inv.stepAt_next_or_host {W : Nat} {s : State} (hs : Inv W s) :
    (∃ t, stepAt W s = .next t) ∨
    ∃ a rest, s.agenda = .host a :: rest ∧ stepAt W s = hostAct W a { s with agenda := rest } := by
  unfold stepAt
  split
  · exact .inl hs.engineTurn_next
  case h_2 rest _ => exact .inl (hs.withAgenda rest).engineTurn_next
  case h_3 a rest ha => exact .inr ⟨a, rest, ha, rfl⟩
  · exact .inl ⟨_, rfl⟩
  · exact .inl ⟨_, rfl⟩

/-! ## The strict step -/

theorem engineHasTurn_iff (s : State) :
    engineHasTurn s = true ↔ s.agenda = [] ∨ ∃ rest, s.agenda = .engine :: rest := by
  unfold engineHasTurn
  split <;> simp_all

/-- At the engine's turn the step is that turn, and the turn taken leaves the agenda. -/
theorem stepAt_of_engineHasTurn (W : Nat) {s : State} (h : engineHasTurn s = true) :
    stepAt W s = engineTurn { s with agenda := s.agenda.tail } := by
  obtain ha | ⟨rest, ha⟩ := (engineHasTurn_iff s).1 h
  · obtain ⟨x, undef, status, pend, answers, draws, fresh, agenda, reads⟩ := s
    cases ha
    rfl
  · simp only [stepAt, ha, List.tail_cons]

theorem stepAt_of_legal (W : Nat) {s : State} {w : Word} {i : Instr} (ht : engineHasTurn s = true)
    (hb : s.status.busy = true) (hp : s.pend = some w) (hi : decode w = .ok i) :
    stepAt W s = exec i { s with agenda := s.agenda.tail } := by
  rw [stepAt_of_engineHasTurn W ht]
  exact engineTurn_of_legal hb hp hi

theorem stepAt_of_illegal (W : Nat) {s : State} {w : Word} {e : Illegal} (ht : engineHasTurn s = true)
    (hb : s.status.busy = true) (hp : s.pend = some w) (he : decode w = .error e) :
    stepAt W s = .next (failIllegal { s with agenda := s.agenda.tail }) := by
  rw [stepAt_of_engineHasTurn W ht]
  exact engineTurn_of_illegal hb hp he

theorem undefinedRead_of_legal {s : State} {w : Word} {i : Instr} (hb : s.status.busy = true) (hp : s.pend = some w)
    (hi : decode w = .ok i) : undefinedRead s = undefinedSource i s := by
  simp only [undefinedRead, hb, hp, hi, if_true]

theorem undefinedRead_of_illegal {s : State} {w : Word} {e : Illegal} (hb : s.status.busy = true) (hp : s.pend = some w)
    (he : decode w = .error e) : undefinedRead s = none := by
  simp only [undefinedRead, hb, hp, he, if_true]

/-- The undefined source is the first one in the order of `sources`. -/
theorem undefinedSource_eq_some {i : Instr} {s : State} {r : Reg} {pre post : List Reg}
    (hsrc : sources i = pre ++ r :: post) (hpre : ∀ q ∈ pre, regDefined s q = true) (hr : regDefined s r = false) :
    undefinedSource i s = some r := by
  rw [undefinedSource, List.find?_eq_some_iff_append]
  exact ⟨by simp [hr], pre, post, hsrc, fun q hq => by simp [hpre q hq]⟩

theorem strictStepAt_of_undefinedRead (W : Nat) {s : State} {r : Reg} (ht : engineHasTurn s = true)
    (hr : undefinedRead s = some r) : strictStepAt W s = .fault (.undefinedSource r) := by
  simp only [strictStepAt, ht, hr, if_true]

theorem strictStepAt_of_no_undefinedRead (W : Nat) {s : State} (hr : undefinedRead s = none) :
    strictStepAt W s = strictOutcome (stepAt W s) := by
  simp only [strictStepAt, hr, ite_self]

theorem strictOutcome_eq_next (o : Host.Outcome State Fault Refusal) (t : State) :
    strictOutcome o = .next t ↔ o = .next t := by
  cases o <;> simp [strictOutcome]

theorem strictOutcome_eq_refused (o : Host.Outcome State Fault Refusal) (e : Refusal) :
    strictOutcome o = .refused e ↔ o = .refused e := by
  cases o <;> simp [strictOutcome]

theorem strictOutcome_eq_ofStep (o : Host.Outcome State Fault Refusal) (f : Fault) :
    strictOutcome o = .fault (.ofStep f) ↔ o = .fault f := by
  cases o <;> simp [strictOutcome]

theorem strictOutcome_ne_undefinedSource (o : Host.Outcome State Fault Refusal) (r : Reg) :
    strictOutcome o ≠ .fault (.undefinedSource r) := by
  cases o <;> simp [strictOutcome]

/-! ## The table of small primes -/

/-- Below 350, an entry of the table is a number from 2 on with no divisor from 2 to its root. -/
theorem mem_smallPrimes_iff_no_divisor :
    ∀ p < 350, p ∈ smallPrimes ↔ 2 ≤ p ∧ ∀ m < 19, 2 ≤ m → m * m ≤ p → ¬ m ∣ p := by
  decide +kernel

theorem smallPrimes_le : ∀ p ∈ smallPrimes, p ≤ 349 := by decide

theorem mem_smallPrimes_iff (p : Nat) : p ∈ smallPrimes ↔ Nat.Prime p ∧ p ≤ 349 := by
  by_cases hp : p ≤ 349
  · rw [mem_smallPrimes_iff_no_divisor p (by omega), Nat.prime_def_le_sqrt]
    simp only [hp, and_true, and_congr_right_iff]
    intro _
    constructor
    · intro h m h2 hm
      have hsq : m * m ≤ p := Nat.le_sqrt.1 hm
      exact h m (by nlinarith) h2 hsq
    · intro h m _ h2 hsq
      exact h m h2 (Nat.le_sqrt.2 hsq)
  · exact ⟨fun h => absurd (smallPrimes_le p h) hp, fun h => absurd h.2 hp⟩

/-! ## The status and configuration words as numbers -/

theorem errNumber_le (e : ErrCode) : errNumber e ≤ 5 := by
  cases e <;> decide

theorem statusWord_toNat (st : Status) :
    (statusWord st).toNat = st.busy.toNat + 2 * st.done.toNat + 4 * st.v.toNat + 16 * errNumber st.err := by
  have herr := errNumber_le st.err
  have hbusy := st.busy.toNat_lt
  have hdone := st.done.toNat_lt
  have hv := st.v.toNat_lt
  rw [statusWord, BitVec.toNat_ofNat]
  omega

/-- A bit of a word, as a binary digit of its number. -/
theorem getLsbD_eq_iff (w : Word) (k : Nat) (b : Bool) : w.getLsbD k = b ↔ w.toNat / 2 ^ k % 2 = b.toNat := by
  rw [BitVec.getLsbD, Nat.testBit_eq_decide_div_mod_eq]
  cases b <;> simp

theorem configWord_toNat {W : Nat} (hW : W ≤ 65535) :
    (configWord W).toNat = W + 8 * 2 ^ 16 + 70 * 2 ^ 20 + 1 * 2 ^ 28 := by
  rw [configWord, BitVec.toNat_ofNat]
  omega

theorem hostRead_config (W : Nat) (s : State) :
    hostRead W 4 0x00C s = .next { s with reads := s.reads ++ [configWord W] } := by
  rw [hostRead, checkAccess_config]
  rfl

theorem hostWrite_config (W : Nat) (v : Word) (s : State) : hostWrite W 4 0x00C v s = .next s := by
  have h : writeSlot W .config v s = s := by simp [writeSlot]
  rw [hostWrite, checkAccess_config]
  exact congrArg _ h

/-! ## The state after hard reset -/

@[simp] theorem readReg_reset (r : Reg) : readReg State.reset r = 0 := by
  simp [readReg, State.reset]

@[simp] theorem undefLimbs_reset (r : Reg) :
    undefLimbs State.reset r = List.range (Config.limbs Config.width) := by
  simp [undefLimbs, State.reset]

theorem inv_reset : Inv Config.width State.reset :=
  inv_finish (s := State.reset) (fun r => by rw [readReg_reset]; positivity)
    (fun r => by rw [undefLimbs_reset]; exact wfLimbs_range _) Status.reset_idle

/-! ## The statements -/

/-- Settles O51: every turn keeps the invariant; the one value a command writes is below its modulus. -/
theorem stepKeepsInvariant : Obligations.StepKeepsInvariant :=
  ⟨fun _ _ _ hs h => inv_stepAt hs h, fun _ _ hs h => inv_stepAt hs h⟩

/-- Settles O9: the strict step by what the pending command reads. -/
theorem undefinedSourceFaults : Obligations.UndefinedSourceFaults := by
  unfold Obligations.UndefinedSourceFaults
  intro W s w hb hp hturn
  have ht : engineHasTurn s = true := (engineHasTurn_iff s).2 hturn
  refine ⟨fun i r pre post hi hsrc hpre hr => ?_, fun i hi hdef => ?_, fun e he => ?_⟩
  · apply strictStepAt_of_undefinedRead W ht
    rw [undefinedRead_of_legal hb hp hi]
    exact undefinedSource_eq_some hsrc hpre hr
  · have hread : undefinedRead s = none :=
      (undefinedRead_of_legal hb hp hi).trans ((undefinedSource_eq_none_iff i s).2 hdef)
    obtain ⟨t, hexec⟩ := exec_next i { s with agenda := s.agenda.tail }
    have hstep : stepAt W s = .next t := (stepAt_of_legal W ht hb hp hi).trans hexec
    exact ⟨t, by rw [strictStepAt_of_no_undefinedRead W hread, hstep]; rfl, hstep⟩
  · rw [strictStepAt_of_no_undefinedRead W (undefinedRead_of_illegal hb hp he),
      stepAt_of_illegal W ht hb hp he]
    rfl

/-- Settles O10: the strict step is the step, but where a legal command reads an undefined register, and there the step goes on,
as every command does. -/
theorem strictStepAgrees : Obligations.StrictStepAgrees := by
  unfold Obligations.StrictStepAgrees
  intro W s
  obtain ⟨r, w, i, ht, hb, hp, hi, -, hstrict⟩ | ⟨-, hstrict⟩ := strictStepAt_cases W s
  · obtain ⟨t, hexec⟩ := exec_next i { s with agenda := s.agenda.tail }
    have hstep : stepAt W s = .next t := (stepAt_of_legal W ht hb hp hi).trans hexec
    rw [hstrict, hstep]
    simp
  · rw [hstrict]
    exact ⟨fun t => (strictOutcome_eq_next _ t).1, strictOutcome_eq_refused _, strictOutcome_eq_ofStep _,
      fun r h => absurd h (strictOutcome_ne_undefinedSource _ r)⟩

/-- Settles O18: below 350 the table holds the numbers with no divisor up to their root. -/
theorem tableIsSmallPrimes : Obligations.TableIsSmallPrimes :=
  ⟨by decide, by decide, mem_smallPrimes_iff⟩

/-- Settles O30: a command with a destination fails or writes that register. -/
theorem frameOfWritingCommands : Obligations.FrameOfWritingCommands := by
  unfold Obligations.FrameOfWritingCommands
  intro i s t rd hi h
  have hd : destination i = some rd := by
    obtain ⟨ra, rb, rn, rfl⟩ | ⟨ra, rb, rn, rfl⟩ | ⟨ra, rn, rfl⟩ := hi <;> rfl
  obtain ⟨e, he, rfl⟩ | ⟨rn, -, v, -, rfl⟩ := exec_cases_of_destination hd h
  · simp [statusFailed, he]
  · simp +contextual [statusDone, regDefined_iff]

/-- Settles O31: a command without a destination fails, reports a verdict or waits. -/
theorem frameOfVerdictCommands : Obligations.FrameOfVerdictCommands := by
  unfold Obligations.FrameOfVerdictCommands
  intro i s t hi h
  have hd : destination i = none := by
    obtain ⟨rn, rfl⟩ | ⟨rn, ra, rfl⟩ | ⟨rn, rounds, rfl⟩ := hi <;> rfl
  obtain ⟨e, rfl⟩ | ⟨b, rfl⟩ | ⟨hptest, rfl⟩ := exec_cases_of_no_destination hd h
  · simp [statusFailed]
  · simp [statusDone]
  · exact ⟨rfl, rfl, rfl, rfl, rfl, rfl, .inr ⟨hptest, rfl⟩⟩

/-- Settles O52: only the host's turn can stop, and it stops only where the access is refused. -/
theorem onlyMisplacedAccessesStop : Obligations.OnlyMisplacedAccessesStop := by
  unfold Obligations.OnlyMisplacedAccessesStop
  intro W s hs
  obtain ⟨t, hnext⟩ | ⟨a, rest, ha, hstep⟩ := hs.stepAt_next_or_host
  · simp [hnext]
  · rw [hstep]
    refine ⟨hostAct_ne_fault W a _, fun e he => ?_⟩
    obtain ⟨size, addr, hact, herr⟩ := hostAct_refused he
    refine ⟨size, addr, rest, ?_, misplaced_of_checkAccess_error herr⟩
    obtain rfl | ⟨v, rfl⟩ := hact
    · exact .inl ha
    · exact .inr ⟨v, ha⟩

/-- Settles O34: each field is a digit of the word's number. -/
theorem statusWordLayout : Obligations.StatusWordLayout := by
  unfold Obligations.StatusWordLayout
  intro st
  have hword := statusWord_toNat st
  have herr := errNumber_le st.err
  have hbusy := st.busy.toNat_lt
  have hdone := st.done.toNat_lt
  have hv := st.v.toNat_lt
  simp only [getLsbD_eq_iff, Bool.toNat_false]
  refine ⟨by omega, by omega, by omega, by omega, by omega, ?_⟩
  change (statusWord st).toNat / 16 = errNumber st.err
  omega

/-- Settles O35: `CONFIG` is a function of the width, and the fields are digits of its number. -/
theorem configWordLayout : Obligations.ConfigWordLayout := by
  unfold Obligations.ConfigWordLayout
  intro W s _ hW
  rw [configWord_toNat hW]
  refine ⟨hostRead_config W s, hostRead_config W (hardReset W s), fun v => hostWrite_config W v s, ?_, ?_, ?_, ?_⟩ <;>
    omega

/-- Settles O47: every limb below `L` is listed as undefined at reset. -/
theorem resetValues : Obligations.ResetValues := by
  refine ⟨rfl, rfl, rfl, fun r j hj => ?_⟩
  rw [← Bool.not_eq_true, limbDefined_iff, undefLimbs_reset, List.mem_range]
  exact not_not_intro hj

/-- Settles O48: the state after hard reset is one that a reset leaves. -/
theorem resetMeetsInvariant : Obligations.ResetMeetsInvariant := inv_reset

end Sys2Proof.Machine

/-! # Lemmas and proofs of the statements of 20_memory.md

What an access of the window does by the slot it reaches, the bits of a limb and of a word's bytes, a register as the sum of
its limbs, the runs of the directives WR and RD, and what a step leaves on the agenda; then the statements, each from these. -/

namespace Sys2Proof.Machine

/-! ## An access by the slot it reaches -/

theorem hostRead_of_slot {W size addr : Nat} {slot : Slot} (h : checkAccess W size addr = .ok slot) (s : State) :
    hostRead W size addr s = .next (readSlot W slot s) := by
  rw [hostRead, h]

theorem hostWrite_of_slot {W size addr : Nat} {slot : Slot} (h : checkAccess W size addr = .ok slot) (v : Word)
    (s : State) : hostWrite W size addr v s = .next (writeSlot W slot v s) := by
  rw [hostWrite, h]

theorem hostRead_of_error {W size addr : Nat} {e : Refusal} (h : checkAccess W size addr = .error e) (s : State) :
    hostRead W size addr s = .refused e := by
  rw [hostRead, h]

theorem hostWrite_of_error {W size addr : Nat} {e : Refusal} (h : checkAccess W size addr = .error e) (v : Word)
    (s : State) : hostWrite W size addr v s = .refused e := by
  rw [hostWrite, h]

theorem checkAccess_wrongSize (W : Nat) {size : Nat} (addr : Nat) (h : size ≠ 4) :
    checkAccess W size addr = .error (.accessSize size) := by
  rw [checkAccess, if_pos h]

theorem checkAccess_misaligned (W : Nat) {addr : Nat} (h : addr % 4 ≠ 0) :
    checkAccess W 4 addr = .error (.misaligned addr) := by
  rw [checkAccess, if_neg (not_not_intro rfl), if_pos h]

theorem checkAccess_outside {W addr : Nat} (h4 : addr % 4 = 0) (h : 0x100 + 32 * Config.limbs W ≤ addr) :
    checkAccess W 4 addr = .error (.outsideWindow addr) := by
  rw [checkAccess, if_neg (not_not_intro rfl), if_neg (not_not_intro h4), (slotAt_eq_none_iff _ _).2 h]

theorem readSlot_of_some {W : Nat} {s : State} {slot : Slot} {v : Word} (h : slotValue W s slot = some v) :
    readSlot W slot s = { s with reads := s.reads ++ [v] } := by
  rw [readSlot, h]

theorem readSlot_of_none {W : Nat} {s : State} {slot : Slot} (h : slotValue W s slot = none) :
    readSlot W slot s = { s with reads := s.reads ++ [Config.freeWord s.fresh], fresh := s.fresh + 1 } := by
  rw [readSlot, h]

/-- A defined limb shows its bits in IDLE. -/
theorem slotValue_limb_of_defined (W : Nat) {s : State} {r : Reg} {j : Nat} (hb : s.status.busy = false)
    (hd : limbDefined s r j = true) : slotValue W s (.limb r j) = some (readLimb W s r j) := by
  simp only [slotValue, hb, hd, Bool.false_eq_true, if_false, if_true]

/-- A limb shows nothing specified while `BUSY = 1`, or where it is undefined. -/
theorem slotValue_limb_eq_none (W : Nat) {s : State} {r : Reg} {j : Nat}
    (h : s.status.busy = true ∨ limbDefined s r j = false) : slotValue W s (.limb r j) = none := by
  obtain hb | hd := h
  · simp only [slotValue, hb, if_true]
  · simp only [slotValue, hd, Bool.false_eq_true, if_false, ite_self]

theorem writeSlot_softReset (W : Nat) {v : Word} (h : v.getLsbD 0 = true) (s : State) :
    writeSlot W .ctrl v s = softReset W s := by
  rw [writeSlot, if_pos ⟨rfl, h⟩]

/-- While `BUSY = 1` a write that is no soft reset is lost. -/
theorem writeSlot_of_busy (W : Nat) {slot : Slot} {v : Word} {s : State} (h : slot = .ctrl → v.getLsbD 0 = false)
    (hb : s.status.busy = true) : writeSlot W slot v s = s := by
  have hno : ¬ (slot = .ctrl ∧ v.getLsbD 0 = true) := fun ⟨hs, hv⟩ => by
    rw [h hs] at hv
    cases hv
  simp only [writeSlot, hno, hb, if_false, if_true]

theorem writeSlot_cmd (W : Nat) (v : Word) {s : State} (hb : s.status.busy = false) :
    writeSlot W .cmd v s = acceptCommand v s := by
  simp [writeSlot, hb]

theorem writeSlot_limb (W : Nat) (r : Reg) (j : Nat) (v : Word) {s : State} (hb : s.status.busy = false) :
    writeSlot W (.limb r j) v s = writeLimb W s r j v := by
  simp [writeSlot, hb]

/-- A write of a slot that is no command, no limb and no soft reset changes nothing. -/
theorem writeSlot_of_unwritable (W : Nat) {slot : Slot} {v : Word} (s : State)
    (h : slot = .status ∨ slot = .config ∨ (slot = .ctrl ∧ v.getLsbD 0 = false) ∨ slot = .reserved) :
    writeSlot W slot v s = s := by
  obtain rfl | rfl | ⟨rfl, hv⟩ | rfl := h
  · simp [writeSlot]
  · simp [writeSlot]
  · simp only [writeSlot, hv, Bool.false_eq_true, and_false, if_false, ite_self]
  · simp [writeSlot]

/-- A limb read and a limb write at the limb's offset. -/
theorem hostRead_limb {W j : Nat} {s : State} (r : Reg) (hj : j < Config.limbs W) (hb : s.status.busy = false)
    (hd : limbDefined s r j = true) :
    hostRead W 4 (0x100 + 4 * (r.val * Config.limbs W + j)) s =
      .next { s with reads := s.reads ++ [readLimb W s r j] } := by
  rw [hostRead_of_slot (checkAccess_limb r hj), readSlot_of_some (slotValue_limb_of_defined W hb hd)]

theorem hostWrite_limb {W j : Nat} {s : State} (r : Reg) (hj : j < Config.limbs W) (v : Word)
    (hb : s.status.busy = false) :
    hostWrite W 4 (0x100 + 4 * (r.val * Config.limbs W + j)) v s = .next (writeLimb W s r j v) := by
  rw [hostWrite_of_slot (checkAccess_limb r hj), writeSlot_limb W r j v hb]

theorem hostWrite_cmd (W : Nat) (w : Word) {s : State} (hb : s.status.busy = false) :
    hostWrite W 4 0x000 w s = .next (acceptCommand w s) := by
  rw [hostWrite_of_slot (checkAccess_cmd W), writeSlot_cmd W w hb]

/-- A write that is lost while `BUSY = 1`: any aligned one inside the window but a soft reset. -/
theorem hostWrite_of_busy {W addr : Nat} {v : Word} {s : State} (h4 : addr % 4 = 0)
    (hin : addr < 0x100 + 32 * Config.limbs W) (hctrl : addr = 0x008 → v.getLsbD 0 = false)
    (hb : s.status.busy = true) : hostWrite W 4 addr v s = .next s := by
  obtain ⟨slot, hok⟩ := checkAccess_inside h4 hin
  have hslot : slot = .ctrl → v.getLsbD 0 = false := fun h => hctrl (addr_of_checkAccess_ctrl (h ▸ hok))
  rw [hostWrite_of_slot hok, writeSlot_of_busy W hslot hb]

/-! ## Bits of a limb, of a register and of a word's bytes -/

/-- Limb `j` has the bits `min(32j+31, W-1) .. 32j` (20_memory.md R33, R34). -/
theorem limbWidth_eq {W j : Nat} (hj : j < Config.limbs W) :
    limbWidth W j = min (32 * j + 31) (W - 1) + 1 - 32 * j := by
  unfold Config.limbs at hj
  unfold limbWidth
  omega

/-- The top limb ends at bit `W - 1`. -/
theorem limbWidth_top {W : Nat} (hW : 0 < W) : limbWidth W (Config.limbs W - 1) = (W - 1) % 32 + 1 := by
  unfold Config.limbs limbWidth
  omega

/-- A written limb, bit by bit. -/
theorem testBit_writeLimb {W j : Nat} (s : State) (r : Reg) (hj : j < Config.limbs W) (v : Word) (k : Nat) :
    (readReg (writeLimb W s r j v) r).testBit k =
      if 32 * j ≤ k ∧ k ≤ min (32 * j + 31) (W - 1) then v.getLsbD (k - 32 * j) else (readReg s r).testBit k := by
  have hwidth := limbWidth_eq hj
  have hend := limbWidth_le hj
  rw [readReg_writeLimb, if_pos rfl, testBit_setBits]
  by_cases hlow : k < 32 * j
  · rw [if_pos hlow, if_neg (by omega)]
  · by_cases hhigh : k < 32 * j + limbWidth W j
    · rw [if_neg hlow, if_pos hhigh, if_pos (by omega), BitVec.getLsbD]
    · rw [if_neg hlow, if_neg hhigh, if_neg (by omega)]

/-- Only the low bits of what is written count. -/
theorem setBits_congr {u u' width : Nat} (h : u % 2 ^ width = u' % 2 ^ width) (v lo : Nat) :
    setBits v lo width u = setBits v lo width u' := by
  rw [setBits, setBits, h]

/-- Bits of a field are bits of the number. -/
theorem bitsOf_bitsOf (v lo : Nat) {width lo' width' : Nat} (h : lo' + width' ≤ width) :
    bitsOf (bitsOf v lo width) lo' width' = bitsOf v (lo + lo') width' := by
  refine Nat.eq_of_testBit_eq fun i => ?_
  simp only [testBit_bitsOf, Nat.add_assoc]
  by_cases hi : i < width'
  · have hin : lo' + i < width := by omega
    simp only [hi, hin, decide_true, Bool.true_and]
  · simp only [hi, decide_false, Bool.false_and]

/-- Above bit `W - 1` a register has no bits, so the cut of the top limb loses none. -/
theorem bitsOf_limbWidth {W v : Nat} (hv : v < 2 ^ W) (j : Nat) :
    bitsOf v (32 * j) (limbWidth W j) = bitsOf v (32 * j) 32 := by
  refine Nat.eq_of_testBit_eq fun i => ?_
  rw [testBit_bitsOf, testBit_bitsOf]
  by_cases hi : 32 * j + i < W
  · have hiff : i < limbWidth W j ↔ i < 32 := by unfold limbWidth; omega
    simp only [hiff]
  · have hzero : v.testBit (32 * j + i) = false :=
      Nat.testBit_lt_two_pow (hv.trans_le (Nat.pow_le_pow_right (by omega) (by omega)))
    simp [hzero]

theorem readLimb_toNat_of_lt {W : Nat} {s : State} {r : Reg} (h : readReg s r < 2 ^ W) (j : Nat) :
    (readLimb W s r j).toNat = bitsOf (readReg s r) (32 * j) 32 := by
  rw [readLimb_toNat, bitsOf_limbWidth h]

/-- The limbs of the window reach at least to bit `W - 1`. -/
theorem width_le_limbs (W : Nat) : W ≤ 32 * Config.limbs W := by
  unfold Config.limbs
  omega

theorem wordByte_toNat (v : Word) (k : Nat) : (wordByte v k).toNat = bitsOf v.toNat (8 * k) 8 := by
  rw [wordByte, BitVec.extractLsb'_toNat, Nat.shiftRight_eq_div_pow, bitsOf]

/-- Writing a limb leaves what every other limb shows. -/
theorem slotValue_writeLimb_other (W : Nat) (s : State) (v : Word) {r q : Reg} {j k : Nat} (h : q ≠ r ∨ k ≠ j) :
    slotValue W (writeLimb W s r j v) (.limb q k) = slotValue W s (.limb q k) := by
  have hdef : limbDefined (writeLimb W s r j v) q k = limbDefined s q k := by
    rw [limbDefined_writeLimb, if_neg (by tauto)]
  have hread : readLimb W (writeLimb W s r j v) q k = readLimb W s q k := by
    rw [readLimb, readLimb, readReg_writeLimb]
    split
    case isFalse => rfl
    case isTrue hq =>
      have hj := limbWidth_le_32 W j
      have hk := limbWidth_le_32 W k
      have hne : k ≠ j := h.resolve_left (not_not_intro hq)
      rw [hq, bitsOf_setBits_other (by omega)]
  simp only [slotValue, writeLimb_status, hdef, hread]

/-- Byte `k` of a register's window is a byte of limb `k / 4` (20_memory.md R35). -/
theorem windowByte_limb {W k : Nat} {s : State} (r : Reg) (hk : k < 4 * Config.limbs W) (hb : s.status.busy = false)
    (hd : limbDefined s r (k / 4) = true) :
    windowByte W s (0x100 + 4 * r.val * Config.limbs W + k) = some (wordByte (readLimb W s r (k / 4)) (k % 4)) := by
  have hoffset : 0x100 + 4 * r.val * Config.limbs W + k = limbOffset (Config.limbs W) r (k / 4) + k % 4 := by
    rw [limbOffset, Nat.mul_assoc]
    omega
  have hbyte : (limbOffset (Config.limbs W) r (k / 4) + k % 4) % 4 = k % 4 := by
    rw [limbOffset]
    omega
  rw [windowByte, hoffset, hbyte, Nat.add_sub_cancel, slotAt_limbOffset r (by omega)]
  simp only [slotValue_limb_of_defined W hb hd, Option.map_some]

/-- A word is its four bytes, lowest first: fields that adjoin make one field. -/
theorem wordOfBytes_wordByte (w : Word) :
    wordOfBytes (wordByte w 0) (wordByte w 1) (wordByte w 2) (wordByte w 3) = w := by
  have hupper : w.extractLsb' 24 8 ++ w.extractLsb' 16 8 = w.extractLsb' 16 16 :=
    BitVec.extractLsb'_append_extractLsb'_eq_extractLsb' rfl
  have hmiddle : w.extractLsb' 16 16 ++ w.extractLsb' 8 8 = w.extractLsb' 8 24 :=
    BitVec.extractLsb'_append_extractLsb'_eq_extractLsb' rfl
  have hlower : w.extractLsb' 8 24 ++ w.extractLsb' 0 8 = w.extractLsb' 0 32 :=
    BitVec.extractLsb'_append_extractLsb'_eq_extractLsb' rfl
  simp only [wordOfBytes, wordByte, hupper, hmiddle, hlower, BitVec.extractLsb'_eq_self]

/-! ## A register as the sum of its limbs -/

/-- `n` limbs of 32 bits sum to the low `32n` bits. -/
theorem sum_bitsOf (v n : Nat) :
    ((List.range n).map fun j => bitsOf v (32 * j) 32 * 2 ^ (32 * j)).sum = v % 2 ^ (32 * n) := by
  induction n with
  | zero => simp [Nat.mod_one]
  | succ n ih =>
    rw [List.range_succ, List.map_append, List.sum_append, ih, Nat.mul_succ, pow_add, Nat.mod_mul]
    simp [bitsOf, Nat.mul_comm]

theorem assembleLimbs_append (vs : List Word) (v : Word) :
    assembleLimbs (vs ++ [v]) = assembleLimbs vs + v.toNat * 2 ^ (32 * vs.length) := by
  induction vs with
  | nil => simp [assembleLimbs]
  | cons u vs ih =>
    rw [List.cons_append, assembleLimbs, assembleLimbs, ih, List.length_cons, Nat.mul_succ, pow_add]
    ring

/-- Assembling limbs is summing them at their places. -/
theorem assembleLimbs_map_range (f : Nat → Word) (n : Nat) :
    assembleLimbs ((List.range n).map f) = ((List.range n).map fun j => (f j).toNat * 2 ^ (32 * j)).sum := by
  induction n with
  | zero => rfl
  | succ n ih =>
    simp [List.range_succ, assembleLimbs_append, ih]

theorem sum_readLimb {W : Nat} {s : State} {r : Reg} (h : readReg s r < 2 ^ W) :
    ((List.range (Config.limbs W)).map fun j => (readLimb W s r j).toNat * 2 ^ (32 * j)).sum = readReg s r := by
  simp only [readLimb_toNat_of_lt h, sum_bitsOf]
  exact Nat.mod_eq_of_lt (h.trans_le (Nat.pow_le_pow_right (by omega) (width_le_limbs W)))

theorem assembleLimbs_readLimb {W : Nat} {s : State} {r : Reg} (h : readReg s r < 2 ^ W) :
    assembleLimbs ((List.range (Config.limbs W)).map (readLimb W s r)) = readReg s r :=
  (assembleLimbs_map_range _ _).trans (sum_readLimb h)

/-! ## The directives WR and RD -/

theorem core_run_succ {s t : State} (h : step s = .next t) (k : Nat) :
    Sys2Proof.core.run (k + 1) s = Sys2Proof.core.run k t := by
  have hcore : Sys2Proof.core.step s = .next t := h
  simp only [Host.Core.run, hcore]

theorem stepAt_host (W : Nat) {s : State} {a : HostAction} {rest : List Event} (h : s.agenda = .host a :: rest) :
    stepAt W s = hostAct W a { s with agenda := rest } := by
  simp only [stepAt, h]

/-- One write turn of `WR`. -/
theorem step_writeTurn {s : State} {r : Reg} {j : Nat} {w : Word} {rest : List Event}
    (hj : j < Config.limbs Config.width) (hb : s.status.busy = false)
    (ha : s.agenda = writeTurn (limbOffset (Config.limbs Config.width) r j) w :: rest) :
    step s = .next (writeLimb Config.width { s with agenda := rest } r j w) :=
  (stepAt_host _ ha).trans (hostWrite_limb r hj w hb)

/-- One read turn of `RD`. -/
theorem step_readTurn {s : State} {r : Reg} {j : Nat} {rest : List Event}
    (hj : j < Config.limbs Config.width) (hb : s.status.busy = false) (hd : regDefined s r = true)
    (ha : s.agenda = readTurn (limbOffset (Config.limbs Config.width) r j) :: rest) :
    step s = .next { s with agenda := rest, reads := s.reads ++ [readLimb Config.width s r j] } :=
  (stepAt_host _ ha).trans (hostRead_limb r hj hb (limbDefined_of_regDefined hd j))

/-- What `WR xr, v` writes into limb `j` (20_memory.md R40). -/
def limbOf (v j : Nat) : Word := BitVec.ofNat 32 (bitsOf v (32 * j) 32)

/-- What the turns of `WR xr, v` for the limbs `js` make of the state. -/
def writeLimbs (W : Nat) (r : Reg) (v : Nat) : List Nat → State → State
  | [], s => s
  | j :: js, s => writeLimbs W r v js (writeLimb W s r j (limbOf v j))

/-- The turns of `WR` for any limbs, taken one by one. -/
theorem run_writeTurns (r : Reg) (v : Nat) (rest : List Event) (js : List Nat) (s : State)
    (hjs : ∀ j ∈ js, j < Config.limbs Config.width) (hb : s.status.busy = false)
    (ha : s.agenda = js.map (fun j => writeTurn (limbOffset (Config.limbs Config.width) r j) (limbOf v j)) ++ rest) :
    Sys2Proof.core.run js.length s = .next (writeLimbs Config.width r v js { s with agenda := rest }) := by
  induction js generalizing s with
  | nil =>
    obtain rfl : s.agenda = rest := ha
    rfl
  | cons j js ih =>
    obtain ⟨hj, hjs⟩ := List.forall_mem_cons.1 hjs
    exact (core_run_succ (step_writeTurn hj hb ha) js.length).trans (ih _ hjs hb rfl)

/-- The turns of `RD` for any limbs of a defined register, taken one by one. -/
theorem run_readTurns (r : Reg) (rest : List Event) (js : List Nat) (s : State)
    (hjs : ∀ j ∈ js, j < Config.limbs Config.width) (hb : s.status.busy = false) (hd : regDefined s r = true)
    (ha : s.agenda = js.map (fun j => readTurn (limbOffset (Config.limbs Config.width) r j)) ++ rest) :
    Sys2Proof.core.run js.length s =
      .next { s with agenda := rest, reads := s.reads ++ js.map (readLimb Config.width s r) } := by
  induction js generalizing s with
  | nil =>
    obtain rfl : s.agenda = rest := ha
    rw [List.map_nil, List.append_nil]
    rfl
  | cons j js ih =>
    obtain ⟨hj, hjs⟩ := List.forall_mem_cons.1 hjs
    refine (core_run_succ (step_readTurn hj hb hd ha) js.length).trans ?_
    refine (ih { s with agenda := _, reads := s.reads ++ [readLimb Config.width s r j] } hjs hb hd rfl).trans ?_
    rw [List.map_cons, List.append_cons s.reads _ (js.map _)]
    rfl

/-- What writing limbs of one register leaves alone. -/
theorem writeLimbs_frame (W : Nat) (r : Reg) (v : Nat) (js : List Nat) (s : State) :
    (writeLimbs W r v js s).status = s.status ∧ (writeLimbs W r v js s).agenda = s.agenda ∧
    (writeLimbs W r v js s).reads = s.reads ∧
    ∀ q, q ≠ r → readReg (writeLimbs W r v js s) q = readReg s q ∧
      undefLimbs (writeLimbs W r v js s) q = undefLimbs s q := by
  induction js generalizing s with
  | nil => exact ⟨rfl, rfl, rfl, fun _ _ => ⟨rfl, rfl⟩⟩
  | cons j js ih =>
    obtain ⟨hstatus, hagenda, hreads, hother⟩ := ih (writeLimb W s r j (limbOf v j))
    refine ⟨hstatus, hagenda, hreads, fun q hq => ?_⟩
    obtain ⟨hx, hu⟩ := hother q hq
    exact ⟨hx.trans (by rw [readReg_writeLimb, if_neg hq]), hu.trans (by rw [undefLimbs_writeLimb, if_neg hq])⟩

/-- After the limbs `js` are written, their bits are those of `v`. -/
theorem testBit_writeLimbs {W : Nat} (r : Reg) (v : Nat) (js : List Nat) (s : State)
    (hjs : ∀ j ∈ js, j < Config.limbs W) (k : Nat) :
    (readReg (writeLimbs W r v js s) r).testBit k =
      if k < W ∧ k / 32 ∈ js then v.testBit k else (readReg s r).testBit k := by
  induction js generalizing s with
  | nil => simp [writeLimbs]
  | cons j js ih =>
    obtain ⟨hj, hjs⟩ := List.forall_mem_cons.1 hjs
    have hlimb : 32 * j ≤ k ∧ k ≤ min (32 * j + 31) (W - 1) ↔ k < W ∧ k / 32 = j := by
      unfold Config.limbs at hj
      omega
    rw [writeLimbs, ih _ hjs, testBit_writeLimb s r hj]
    simp only [hlimb, List.mem_cons, and_or_left]
    by_cases hk : k < W ∧ k / 32 = j
    · have hbit : (limbOf v j).getLsbD (k - 32 * j) = v.testBit k := by
        have hin : k - 32 * j < 32 := by omega
        have hplace : 32 * j + (k - 32 * j) = k := by omega
        rw [limbOf, BitVec.getLsbD_ofNat, testBit_bitsOf, hplace, decide_eq_true hin, Bool.true_and, Bool.true_and]
      simp [hk, hbit]
    · simp only [hk, if_false, false_or]

/-- After the limbs `js` are written, none of them is undefined. -/
theorem mem_undefLimbs_writeLimbs (W : Nat) (r : Reg) (v : Nat) (js : List Nat) (s : State) (k : Nat) :
    k ∈ undefLimbs (writeLimbs W r v js s) r ↔ k ∈ undefLimbs s r ∧ k ∉ js := by
  induction js generalizing s with
  | nil => simp [writeLimbs]
  | cons j js ih => simp [writeLimbs, ih, and_assoc]

/-- Writing every limb writes the register. -/
theorem readReg_writeLimbs_all {W v : Nat} {s : State} {r : Reg} (hs : readReg s r < 2 ^ W) (hv : v < 2 ^ W) :
    readReg (writeLimbs W r v (List.range (Config.limbs W)) s) r = v := by
  refine Nat.eq_of_testBit_eq fun k => ?_
  rw [testBit_writeLimbs r v _ s (fun _ => List.mem_range.1)]
  by_cases hk : k < W
  · have hlimb : k / 32 < Config.limbs W := by
      unfold Config.limbs
      omega
    rw [if_pos ⟨hk, List.mem_range.2 hlimb⟩]
  · have hpow : 2 ^ W ≤ 2 ^ k := Nat.pow_le_pow_right (by omega) (by omega)
    rw [if_neg fun h => hk h.1, Nat.testBit_lt_two_pow (hs.trans_le hpow), Nat.testBit_lt_two_pow (hv.trans_le hpow)]

/-- Writing every limb defines the register. -/
theorem regDefined_writeLimbs_all {W : Nat} {s : State} (hs : Inv W s) (r : Reg) (v : Nat) :
    regDefined (writeLimbs W r v (List.range (Config.limbs W)) s) r = true := by
  rw [regDefined_iff, List.eq_nil_iff_forall_not_mem]
  intro k hk
  obtain ⟨hundef, hout⟩ := (mem_undefLimbs_writeLimbs W r v _ s k).1 hk
  exact hout (List.mem_range.2 (hs.undefBelow r k hundef))

/-! ## A word of the opcode table -/

theorem decode_of_decodeTableWord {nbits w : Nat} {i : Instr} (h : decodeTableWord nbits w = some i) :
    decode (tableWord nbits w) = .ok i := by
  unfold decodeTableWord at h
  split at h <;> cases h
  assumption

/-! ## What a step leaves on the agenda -/

theorem exec_agenda {i : Instr} {s t : State} (h : exec i s = .next t) : t.agenda = s.agenda := by
  obtain ⟨e, -, rfl⟩ | ⟨b, -, rfl⟩ | ⟨rd, v, -, rfl⟩ | ⟨rn, rounds, -, -, rfl⟩ := exec_cases h <;> rfl

theorem engineTurn_agenda {s t : State} (h : engineTurn s = .next t) : t.agenda = s.agenda := by
  obtain ⟨-, rfl⟩ | ⟨w, i, -, -, -, he⟩ | ⟨w, e, -, -, -, rfl⟩ := engineTurn_cases h
  · rfl
  · exact exec_agenda he
  · rfl

theorem readSlot_agenda (W : Nat) (slot : Slot) (s : State) : (readSlot W slot s).agenda = s.agenda := by
  obtain ⟨v, -, h⟩ | ⟨-, h⟩ := readSlot_cases W slot s <;> rw [h]

theorem softReset_agenda (W : Nat) (s : State) : (softReset W s).agenda = s.agenda := by
  obtain ⟨-, h⟩ | ⟨rd, -, h⟩ := softReset_cases W s <;> rw [h] <;> rfl

theorem writeSlot_agenda (W : Nat) (slot : Slot) (v : Word) (s : State) : (writeSlot W slot v s).agenda = s.agenda := by
  obtain ⟨-, h⟩ | h | ⟨-, -, h⟩ | ⟨r, j, -, -, h⟩ := writeSlot_cases W slot v s <;> rw [h]
  · exact softReset_agenda W s
  · rfl
  · rfl

theorem hostAct_agenda {W : Nat} {a : HostAction} {s t : State} (h : hostAct W a s = .next t) :
    t.agenda = s.agenda := by
  obtain ⟨_, _, slot, -, -, rfl⟩ | ⟨_, _, v, slot, -, -, rfl⟩ | ⟨-, rfl⟩ := hostAct_cases h
  · exact readSlot_agenda W slot s
  · exact writeSlot_agenda W slot v s
  · rfl

theorem rngAnswer_agenda (W draw r : Nat) (s : State) : (rngAnswer W draw r s).agenda = s.agenda := by
  obtain ⟨-, -, h⟩ | ⟨-, h⟩ := rngAnswer_cases W draw r s <;> rw [h]

/-- A step that is no poll takes its turn off the agenda and puts none in. -/
theorem stepAt_agenda {W : Nat} {s t : State} (h : stepAt W s = .next t)
    (hpoll : ∀ between rest, s.agenda ≠ .poll between :: rest) : t.agenda = s.agenda.tail := by
  obtain ⟨ha, h⟩ | ⟨rest, ha, h⟩ | ⟨a, rest, ha, h⟩ | ⟨draw, r, rest, ha, rfl⟩ | ⟨between, rest, ha, -⟩ := stepAt_cases h
  · rw [engineTurn_agenda h, ha, List.tail_nil]
  · rw [engineTurn_agenda h, ha, List.tail_cons]
  · rw [hostAct_agenda h, ha, List.tail_cons]
  · rw [rngAnswer_agenda, ha, List.tail_cons]
  · exact absurd ha (hpoll between rest)

theorem stepAt_poll (W : Nat) {s : State} {between : List (List OtherTurn)} {rest : List Event}
    (h : s.agenda = .poll between :: rest) : stepAt W s = .next (hostPoll W between rest s) := by
  simp only [stepAt, h]

/-- A poll that reads `BUSY = 1` comes again after the turns planned, or after the engine's where none are. -/
theorem turnsAfterPoll_busy (between : List (List OtherTurn)) (rest : List Event) :
    ∃ (turns : List OtherTurn) (later : List (List OtherTurn)),
      turnsAfterPoll true between rest = turns.map eventOf ++ .poll later :: rest := by
  cases between with
  | nil => exact ⟨[.engine], [], rfl⟩
  | cons group later => exact ⟨group, later, rfl⟩

/-! ## The statements -/

/-- Settles O44: each turn writes or reads one limb; the limbs of `v` make up `v`, and those of the register the register. -/
theorem registerDirectives : Obligations.RegisterDirectives := by
  unfold Obligations.RegisterDirectives
  intro s r rest hs hb
  have hbelow : ∀ j ∈ List.range (Config.limbs Config.width), j < Config.limbs Config.width := fun _ => List.mem_range.1
  refine ⟨fun v hv ha => ?_, fun hd ha => ?_⟩
  · have hrun := run_writeTurns r v rest _ s hbelow hb ha
    rw [List.length_range] at hrun
    obtain ⟨hstatus, hagenda, hreads, hother⟩ :=
      writeLimbs_frame Config.width r v (List.range (Config.limbs Config.width)) { s with agenda := rest }
    exact ⟨_, hrun, readReg_writeLimbs_all (hs.regBelow r) hv, regDefined_writeLimbs_all (hs.withAgenda rest) r v,
      hagenda, hstatus, hreads, hother⟩
  · have hrun := run_readTurns r rest _ s hbelow hb hd ha
    rw [List.length_range] at hrun
    exact ⟨_, hrun, assembleLimbs_readLimb (hs.regBelow r)⟩

/-- Settles O37: an access by its slot, and a written limb bit by bit. -/
theorem hostWriteCases : Obligations.HostWriteCases := by
  unfold Obligations.HostWriteCases
  intro W v s _
  refine ⟨fun hv => ?_, fun _ => hostWrite_of_busy, fun hb =>
    ⟨hostWrite_cmd W v hb, fun r j hj => ⟨_, hostWrite_limb r hj v hb, ?_⟩, fun addr h4 haddr => ?_⟩⟩
  · rw [hostWrite_of_slot (checkAccess_ctrl W), writeSlot_softReset W hv]
  · refine ⟨testBit_writeLimb s r hj v, fun q hq => ?_, fun k => ?_, rfl, rfl, rfl, rfl, rfl, rfl, rfl⟩
    · rw [readReg_writeLimb, if_neg hq, undefLimbs_writeLimb, if_neg hq]
      exact ⟨rfl, rfl⟩
    · simp only [limbDefined_writeLimb, true_and]
  · obtain rfl | rfl | ⟨rfl, hv⟩ | ⟨h1, h2⟩ := haddr
    · rw [hostWrite_of_slot (checkAccess_status W), writeSlot_of_unwritable W s (.inl rfl)]
    · exact hostWrite_config W v s
    · rw [hostWrite_of_slot (checkAccess_ctrl W), writeSlot_of_unwritable W s (.inr (.inr (.inl ⟨rfl, hv⟩)))]
    · rw [hostWrite_of_slot (checkAccess_reserved h4 h1 h2), writeSlot_of_unwritable W s (.inr (.inr (.inr rfl)))]

/-- Settles O38: an access by its slot, and the value that slot shows. -/
theorem hostReadCases : Obligations.HostReadCases := by
  unfold Obligations.HostReadCases
  intro W s _
  refine ⟨hostRead_of_slot (checkAccess_cmd W) s, hostRead_of_slot (checkAccess_status W) s,
    hostRead_of_slot (checkAccess_ctrl W) s, hostRead_config W s,
    fun addr h4 h1 h2 => hostRead_of_slot (checkAccess_reserved h4 h1 h2) s,
    fun r j hj => ⟨fun h => ?_, fun hb hd => ⟨_, hostRead_limb r hj hb hd, ?_⟩⟩⟩
  · rw [hostRead_of_slot (checkAccess_limb r hj), readSlot_of_none (slotValue_limb_eq_none W h)]
  · rw [readLimb_toNat, limbWidth_eq hj, bitsOf]

/-- Settles O39: the check of an access, at each of its tests. -/
theorem accessesOutsideTheWindowAreRefused : Obligations.AccessesOutsideTheWindowAreRefused := by
  unfold Obligations.AccessesOutsideTheWindowAreRefused
  intro W size addr v s
  refine ⟨fun hsize => ?_, fun h4 => ?_, fun h4 hout => ?_, fun h4 hin => ?_⟩
  · have herr := checkAccess_wrongSize W addr hsize
    exact ⟨hostRead_of_error herr s, hostWrite_of_error herr v s⟩
  · have herr := checkAccess_misaligned W h4
    exact ⟨hostRead_of_error herr s, hostWrite_of_error herr v s⟩
  · have herr := checkAccess_outside h4 hout
    exact ⟨hostRead_of_error herr s, hostWrite_of_error herr v s⟩
  · obtain ⟨slot, hok⟩ := checkAccess_inside h4 hin
    exact ⟨⟨_, hostRead_of_slot hok s⟩, _, hostWrite_of_slot hok v s⟩

/-- Settles O40: the field just written reads back, and a field that does not meet it is as before. -/
theorem limbReadsBack : Obligations.LimbReadsBack := by
  unfold Obligations.LimbReadsBack
  intro W v s t r j hj hb h
  obtain rfl : writeLimb W s r j v = t := Host.Outcome.next.inj ((hostWrite_limb r hj v hb).symm.trans h)
  refine ⟨⟨_, hostRead_limb r hj hb (by simp), ?_⟩, fun q k hk hne => ?_⟩
  · rw [readLimb_toNat, readReg_writeLimb, if_pos rfl, bitsOf_setBits_same]
    rfl
  · exact slotValue_writeLimb_other W s v hne

/-- Settles O41: a limb is the field of 32 bits at its place, and those fields sum to the register. -/
theorem registerIsSumOfLimbs : Obligations.RegisterIsSumOfLimbs := by
  unfold Obligations.RegisterIsSumOfLimbs
  refine ⟨fun W s r h => ⟨fun j _ => readLimb_toNat_of_lt h j, (sum_readLimb h).symm, assembleLimbs_readLimb h⟩,
    fun s hx hb hd => ?_⟩
  have hread : ∀ j < 2, hostRead 64 4 (0x100 + 4 * ((1 : Reg).val * 2 + j)) s =
      .next { s with reads := s.reads ++ [readLimb 64 s 1 j] } := fun j hj =>
    hostRead_limb (W := 64) 1 hj hb (limbDefined_of_regDefined hd j)
  have hlow : readLimb 64 s 1 0 = 2 := by rw [readLimb, hx]; rfl
  have hhigh : readLimb 64 s 1 1 = 1 := by rw [readLimb, hx]; rfl
  exact ⟨hlow ▸ hread 0 (by decide), hhigh ▸ hread 1 (by decide)⟩

/-- Settles O42: the top limb has `(W - 1) % 32 + 1` bits, and only as many bits of a written word count. -/
theorem topLimbIsCut : Obligations.TopLimbIsCut := by
  unfold Obligations.TopLimbIsCut
  intro W s r hW
  have htop := limbWidth_top (W := W) (by omega)
  refine ⟨fun k hk => ?_, fun u v huv => ?_⟩
  · rw [BitVec.getLsbD, readLimb_toNat, htop, testBit_bitsOf, decide_eq_false (by omega), Bool.false_and]
  · rw [writeLimb, writeLimb, htop, setBits_congr huv]

/-- Settles O43: a byte is a field of its word, which is a field of the register. -/
theorem windowIsLittleEndian : Obligations.WindowIsLittleEndian := by
  unfold Obligations.WindowIsLittleEndian
  refine ⟨fun v k _ => wordByte_toNat v k, fun W s r k hx hd hb hk => ?_⟩
  refine ⟨_, windowByte_limb r hk hb (limbDefined_of_regDefined hd _), ?_⟩
  rw [wordByte_toNat, readLimb_toNat_of_lt hx, bitsOf_bitsOf _ _ (by omega),
    show 32 * (k / 4) + 8 * (k % 4) = 8 * k by omega, bitsOf]

/-- Settles O7: the four bytes make up the word. -/
theorem decodeOfBytes : Obligations.DecodeOfBytes := by
  unfold Obligations.DecodeOfBytes
  intro w rest
  rw [decodeBytes, wordOfBytes_wordByte]

/-- Settles O11: the accepted word is decoded at the engine's turn, which stands first. -/
theorem fetchWordRunsCommand : Obligations.FetchWordRunsCommand := by
  unfold Obligations.FetchWordRunsCommand
  intro s nbits w i h
  exact stepAt_of_legal Config.width (s := s.withFetchWord nbits w) rfl rfl rfl (decode_of_decodeTableWord h)

/-- Settles O13: only a poll puts turns in. -/
theorem stepTakesOneTurn : Obligations.StepTakesOneTurn := by
  unfold Obligations.StepTakesOneTurn
  intro W s t h
  refine ⟨stepAt_agenda h, fun between rest ha => ?_⟩
  obtain rfl : hostPoll W between rest s = t := Host.Outcome.next.inj ((stepAt_poll W ha).symm.trans h)
  rw [hostPoll_eq]
  cases hb : s.status.busy with
  | false => exact ⟨between.flatten, .inl ⟨rfl, rfl⟩⟩
  | true =>
    obtain ⟨turns, later, hturns⟩ := turnsAfterPoll_busy between rest
    exact ⟨turns, .inr ⟨later, hturns, rfl⟩⟩

/-- Settles O36: the write of `CMD` by `BUSY`. -/
theorem commandAcceptance : Obligations.CommandAcceptance := by
  unfold Obligations.CommandAcceptance
  exact fun W w s => ⟨hostWrite_cmd W w, hostWrite_of_busy rfl (by omega) (fun h => by cases h)⟩

end Sys2Proof.Machine

/-! # Lemmas and proofs of the statements of 30_encoding.md

The six fields of format C, which tie the decoder to the encoder for all commands at once; the words that no row of the
table fits; the engine's turn by whether a PTEST waits for a draw, and the polls of WAIT; then the statements, each from
these. -/

namespace Sys2Proof

/-! ## A command and a word by the fields of format C -/

/-- The values of the six fields of format C (30_encoding.md R51). -/
structure FormatFields where
  op : Nat
  rd : Reg
  ra : Reg
  rb : Reg
  rn : Reg
  imm : Nat

/-- The fields of a word. -/
def wordFields (w : Word) : FormatFields := ⟨fieldOp w, fieldRd w, fieldRa w, fieldRb w, fieldRn w, fieldImm w⟩

/-- The fields of a command's word; one that the command does not use is 0 (30_encoding.md R52). -/
def Instr.fields : Instr → FormatFields
  | .modmul rd ra rb rn => ⟨1, rd, ra, rb, rn, 0⟩
  | .modexp rd ra rb rn => ⟨2, rd, ra, rb, rn, 0⟩
  | .modinv rd ra rn => ⟨3, rd, ra, 0, rn, 0⟩
  | .tdiv rn => ⟨4, 0, 0, 0, rn, 0⟩
  | .mrround rn ra => ⟨5, 0, ra, 0, rn, 0⟩
  | .ptest rn rounds => ⟨6, 0, 0, 0, rn, rounds⟩

theorem encode_eq_formatC (i : Instr) :
    encode i = formatC i.fields.op i.fields.rd i.fields.ra i.fields.rb i.fields.rn i.fields.imm := by
  cases i <;> rfl

theorem Instr.fields_op_lt (i : Instr) : i.fields.op < 16 := by
  cases i <;> simp [Instr.fields]

/-- The immediate is the one field that a command may hold too large a value for. -/
theorem Instr.wellFormed_iff (i : Instr) : i.wellFormed = true ↔ i.fields.imm < 65536 := by
  cases i <;> simp [Instr.fields, Instr.wellFormed]

/-- The word of a well-formed command has that command's fields. -/
theorem wordFields_encode {i : Instr} (h : i.wellFormed = true) : wordFields (encode i) = i.fields := by
  obtain ⟨hop, hrd, hra, hrb, hrn, himm⟩ :=
    fields_formatC i.fields.op i.fields.rd i.fields.ra i.fields.rb i.fields.rn i.fields.imm i.fields_op_lt
      (i.wellFormed_iff.1 h)
  rw [encode_eq_formatC, wordFields, hop, hrd, hra, hrb, hrn, himm]

/-- A word with a command's fields is that command's word. -/
theorem encode_of_wordFields {w : Word} {i : Instr} (h : wordFields w = i.fields) : encode i = w := by
  rw [encode_eq_formatC, ← h]
  exact formatC_fields w

/-- A word decodes to the command that has its fields. -/
theorem decode_eq_ok_iff (w : Word) (i : Instr) : decode w = .ok i ↔ wordFields w = i.fields := by
  constructor
  · intro hi
    obtain ⟨hop, himm, hw⟩ | ⟨hop, himm, hw⟩ | ⟨hop, hrb, himm, hw⟩ | ⟨hop, hrd, hra, hrb, himm, hw⟩ |
      ⟨hop, hrd, hrb, himm, hw⟩ | ⟨hop, hrd, hra, hrb, hw⟩ | ⟨-, -, -, -, -, -, hw⟩ := decode_cases w <;>
      cases hw.symm.trans hi <;> simp [wordFields, Instr.fields, *]
  · intro h
    cases i
    all_goals
      obtain ⟨hop, hrd, hra, hrb, hrn, himm⟩ := FormatFields.mk.inj h
      simp only [decode, fits_modmul, fits_modexp, fits_modinv, fits_tdiv, fits_mrround, fits_ptest]
      simp [hop, hrd, hra, hrb, hrn, himm]

/-! ## The rows of the table, and the words that fit none -/

theorem fits_iff (w mask pattern : Word) : fits w mask pattern = true ↔ w &&& mask = pattern := beq_iff_eq

/-- A word is illegal exactly when its fields are those of no row (30_encoding.md R55, R56). -/
theorem decode_eq_error_iff (w : Word) :
    (∃ e, decode w = .error e) ↔
      ¬ (fieldOp w = 1 ∧ fieldImm w = 0) ∧ ¬ (fieldOp w = 2 ∧ fieldImm w = 0) ∧
      ¬ (fieldOp w = 3 ∧ fieldRb w = 0 ∧ fieldImm w = 0) ∧
      ¬ (fieldOp w = 4 ∧ fieldRd w = 0 ∧ fieldRa w = 0 ∧ fieldRb w = 0 ∧ fieldImm w = 0) ∧
      ¬ (fieldOp w = 5 ∧ fieldRd w = 0 ∧ fieldRb w = 0 ∧ fieldImm w = 0) ∧
      ¬ (fieldOp w = 6 ∧ fieldRd w = 0 ∧ fieldRa w = 0 ∧ fieldRb w = 0) := by
  simp only [decode, fits_modmul, fits_modexp, fits_modinv, fits_tdiv, fits_mrround, fits_ptest]
  split_ifs <;> simp [*]

/-! Where a register field stands in the patterns of 30_encoding.md R55. -/

theorem fieldRd_eq {w : Word} {r : Reg} (h : fieldRd w = r) : r.val = w.toNat / 2 ^ 25 % 8 := h ▸ fieldRd_val w

theorem fieldRa_eq {w : Word} {r : Reg} (h : fieldRa w = r) : r.val = w.toNat / 2 ^ 22 % 8 := h ▸ fieldRa_val w

theorem fieldRb_eq {w : Word} {r : Reg} (h : fieldRb w = r) : r.val = w.toNat / 2 ^ 19 % 8 := h ▸ fieldRb_val w

theorem fieldRn_eq {w : Word} {r : Reg} (h : fieldRn w = r) : r.val = w.toNat / 2 ^ 16 % 8 := h ▸ fieldRn_val w

/-! ## The statements of the encoding -/

/-- Settles O2: encoding keeps every field, and a word decodes to the command that has its fields. -/
theorem decodeOfEncode : Obligations.DecodeOfEncode := by
  unfold Obligations.DecodeOfEncode
  exact fun i hwf => (decode_eq_ok_iff _ i).2 (wordFields_encode hwf)

/-- Settles O3: a word is made of its fields, and its immediate has 16 bits. -/
theorem encodeOfDecode : Obligations.EncodeOfDecode := by
  unfold Obligations.EncodeOfDecode
  intro w i h
  have hfields := (decode_eq_ok_iff w i).1 h
  refine ⟨i.wellFormed_iff.2 ?_, encode_of_wordFields hfields⟩
  rw [← hfields]
  exact BitVec.isLt _

/-- Settles O4: each row's mask compares the fields that the row fixes. -/
theorem legalExactlyWhenMaskMatches : Obligations.LegalExactlyWhenMaskMatches := by
  unfold Obligations.LegalExactlyWhenMaskMatches
  intro w
  simp only [ne_eq, ← fits_iff, fits_modmul, fits_modexp, fits_modinv, fits_tdiv, fits_mrround, fits_ptest,
    decode_eq_error_iff, decode_eq_ok_iff, wordFields, Instr.fields, FormatFields.mk.injEq, true_and]
  refine ⟨?_, ?_, ?_, ?_, ?_, ?_, ?_, ?_, ?_, ?_, ?_⟩
  -- the operands of a row's command are the word's own fields, so only the fields that the row fixes are left
  iterate 6 simp
  · rintro rd ra rb rn (⟨-, hrd, hra, hrb, hrn, -⟩ | ⟨-, hrd, hra, hrb, hrn, -⟩)
    all_goals exact ⟨fieldRd_eq hrd, fieldRa_eq hra, fieldRb_eq hrb, fieldRn_eq hrn⟩
  · rintro rd ra rn ⟨-, hrd, hra, -, hrn, -⟩
    exact ⟨fieldRd_eq hrd, fieldRa_eq hra, fieldRn_eq hrn⟩
  · rintro rn ⟨-, -, -, -, hrn, -⟩
    exact fieldRn_eq hrn
  · rintro rn ra ⟨-, -, hra, -, hrn, -⟩
    exact ⟨fieldRa_eq hra, fieldRn_eq hrn⟩
  · rintro rn rounds ⟨-, -, -, -, hrn, himm⟩
    exact ⟨fieldRn_eq hrn, by rw [← himm, fieldImm_eq, Nat.pow_zero, Nat.div_one]⟩

/-- Settles O1: each worked line is evaluated. -/
theorem workedEncodings : Obligations.WorkedEncodings := by
  unfold Obligations.WorkedEncodings
  decide

end Sys2Proof

namespace Sys2Proof.Machine

/-- Settles O5: the illegal words are those whose fields fit no row. -/
theorem illegalWordsFail : Obligations.IllegalWordsFail := by
  unfold Obligations.IllegalWordsFail
  refine ⟨fun w => ?_, fun W w e s he hb => ?_⟩
  · rw [decode_eq_error_iff]
    have hop : 7 ≤ fieldOp w ∨ fieldOp w = 0 ∨ fieldOp w = 1 ∨ fieldOp w = 2 ∨ fieldOp w = 3 ∨ fieldOp w = 4 ∨
      fieldOp w = 5 ∨ fieldOp w = 6 := by omega
    obtain h | h | h | h | h | h | h | h := hop
    · have hne : ∀ k < 7, fieldOp w ≠ k := fun k hk => by omega
      simp [h, hne]
    all_goals simp [h] <;> tauto
  · have ht : engineTurn (acceptCommand w s) = .next (failIllegal (acceptCommand w s)) :=
      engineTurn_of_illegal rfl rfl he
    exact ⟨_, _, hostWrite_cmd W w hb, rfl, ht, rfl, rfl, rfl, rfl⟩

/-! ## The engine's turn, by whether a PTEST waits for a draw -/

/-- The engine awaits an answer exactly while a PTEST that lacks a draw is pending (60_exceptions.md R128). -/
theorem awaitsAnswer_iff (s : State) :
    awaitsAnswer s = true ↔ s.status.busy = true ∧ ∃ w rn rounds, s.pend = some w ∧
      decode w = .ok (.ptest rn rounds) ∧ ptestResult (readReg s rn) rounds s.answers = .waiting := by
  constructor
  · intro h
    unfold awaitsAnswer rngRequest at h
    split at h
    case isFalse => cases h
    case isTrue hb =>
      split at h
      case h_2 => cases h
      case h_1 w hp =>
        split at h
        case h_2 => cases h
        case h_1 rn rounds hw =>
          split at h
          case isFalse => cases h
          case isTrue hwait => exact ⟨hb, w, rn, rounds, hp, hw, hwait⟩
  · rintro ⟨hb, w, rn, rounds, hp, hw, hwait⟩
    simp only [awaitsAnswer, rngRequest, hb, hp, hw, hwait, if_true, Option.isSome_some]

/-- While a draw is missing the engine's turn changes nothing. -/
theorem engineTurn_of_awaitsAnswer {s : State} (h : awaitsAnswer s = true) : engineTurn s = .next s := by
  obtain ⟨hb, w, rn, rounds, hp, hw, hwait⟩ := (awaitsAnswer_iff s).1 h
  rw [engineTurn_of_legal hb hp hw]
  simp only [exec, execPtest, hwait]

/-- A busy engine that waits for no draw ends its command, on any path. -/
theorem Inv.engineTurn_completes {W : Nat} {s : State} (hs : Inv W s) (hb : s.status.busy = true)
    (hwait : awaitsAnswer s = false) :
    ∃ t, engineTurn s = .next t ∧ t.status.busy = false ∧ t.status.done = true ∧ t.agenda = s.agenda ∧
      t.reads = s.reads := by
  obtain ⟨t, ht⟩ := hs.engineTurn_next
  refine ⟨t, ht, ?_⟩
  obtain ⟨hidle, -⟩ | ⟨w, i, -, hp, hw, hexec⟩ | ⟨w, e, -, -, -, rfl⟩ := engineTurn_cases ht
  · rw [hb] at hidle
    cases hidle
  · obtain ⟨e, -, rfl⟩ | ⟨b, -, rfl⟩ | ⟨rd, v, -, rfl⟩ | ⟨rn, rounds, rfl, hresult, -⟩ := exec_cases hexec
    · exact ⟨rfl, rfl, rfl, rfl⟩
    · exact ⟨rfl, rfl, rfl, rfl⟩
    · exact ⟨rfl, rfl, rfl, rfl⟩
    · rw [(awaitsAnswer_iff s).2 ⟨hb, w, rn, rounds, hp, hw, hresult⟩] at hwait
      cases hwait
  · exact ⟨rfl, rfl, rfl, rfl⟩

/-! ## The polls of WAIT -/

/-- STATUS of a busy engine reads exactly 1 (20_memory.md R43). -/
theorem Inv.statusWord_of_busy {W : Nat} {s : State} (hs : Inv W s) (hb : s.status.busy = true) :
    statusWord s.status = 1 := by
  rw [hs.busyFlags hb]
  rfl

/-- A poll in IDLE is the last one. -/
theorem stepAt_poll_idle (W : Nat) {s : State} {between : List (List OtherTurn)} {rest : List Event}
    (ha : s.agenda = .poll between :: rest) (hb : s.status.busy = false) :
    stepAt W s =
      .next { s with agenda := between.flatten.map eventOf ++ rest, reads := s.reads ++ [statusWord s.status] } := by
  rw [stepAt_poll W ha, hostPoll_eq, hb]
  rfl

/-- A poll in BUSY comes again, after the turns planned for it. -/
theorem stepAt_poll_busy (W : Nat) {s : State} {group : List OtherTurn} {later : List (List OtherTurn)}
    {rest : List Event} (ha : s.agenda = .poll (group :: later) :: rest) (hb : s.status.busy = true) :
    stepAt W s =
      .next { s with
        agenda := group.map eventOf ++ .poll later :: rest
        reads := s.reads ++ [statusWord s.status] } := by
  rw [stepAt_poll W ha, hostPoll_eq, hb]
  rfl

/-- A poll in BUSY comes again, after the engine's turn where none is planned. -/
theorem stepAt_poll_busy_unplanned (W : Nat) {s : State} {rest : List Event} (ha : s.agenda = .poll [] :: rest)
    (hb : s.status.busy = true) :
    stepAt W s =
      .next { s with agenda := .engine :: .poll [] :: rest, reads := s.reads ++ [statusWord s.status] } := by
  rw [stepAt_poll W ha, hostPoll_eq, hb]
  rfl

theorem stepAt_engine (W : Nat) {s : State} {rest : List Event} (h : s.agenda = .engine :: rest) :
    stepAt W s = engineTurn { s with agenda := rest } := by
  simp only [stepAt, h]

/-- One round of an unplanned WAIT in BUSY: a poll that reads 1, and the engine's turn. -/
theorem Inv.run_waitRound {s t : State} {rest : List Event} (hs : Inv Config.width s) (hb : s.status.busy = true)
    (ha : s.agenda = .poll [] :: rest)
    (ht : engineTurn { s with reads := s.reads ++ [1] } = .next t) (k : Nat) :
    Sys2Proof.core.run (k + 2) s = Sys2Proof.core.run k t := by
  have hpoll := stepAt_poll_busy_unplanned Config.width ha hb
  rw [hs.statusWord_of_busy hb, ← ha] at hpoll
  exact (core_run_succ hpoll (k + 1)).trans (core_run_succ ((stepAt_engine _ rfl).trans ht) k)

/-! ## The statements about commands and WAIT -/

/-- Settles O45: a poll by `BUSY`, and the engine's turn between two polls by whether a draw is missing. -/
theorem waitPollsUntilIdle : Obligations.WaitPollsUntilIdle := by
  unfold Obligations.WaitPollsUntilIdle
  refine ⟨fun W s between rest ha => ⟨stepAt_poll_idle W ha, ?_, ?_⟩,
    fun s rest hs hb ha => ⟨fun hwait => ?_, fun hwait => ?_⟩⟩
  · rintro hb group later rfl
    simpa [directiveTurns] using stepAt_poll_busy W ha hb
  · rintro hb rfl
    exact stepAt_poll_busy_unplanned W ha hb
  · have hpolled : Inv Config.width { s with reads := s.reads ++ [1] } := hs.of_fields rfl rfl rfl rfl rfl
    obtain ⟨t, ht, hidle, hdone, hagenda, hreads⟩ := hpolled.engineTurn_completes hb hwait
    have hlast := stepAt_poll_idle Config.width (hagenda.trans ha) hidle
    exact ⟨_, (hs.run_waitRound hb ha ht 1).trans (core_run_succ hlast 0), hidle, hdone, rfl, by simp [hreads]⟩
  · exact hs.run_waitRound hb ha (engineTurn_of_awaitsAnswer hwait) 0

/-- Settles O6: MODSQR is MODMUL by its definition, and a product of equal factors is a square. -/
theorem modsqrIsSquare : Obligations.ModsqrIsSquare := by
  unfold Obligations.ModsqrIsSquare
  refine fun rd ra rn s => ⟨rfl, fun hn => ?_⟩
  rw [modsqr, exec, execModmul, if_neg hn, pow_two]
  rfl

end Sys2Proof.Machine

/-! # Lemmas and proofs of the statements of 40_modmul_modexp.md

What each command does in each of its cases, one equation a case; two states in which a command ends alike; then the
statements, each from these. -/

namespace Sys2Proof.Machine

/-! ## What each command does, case by case -/

section
variable {rd ra rb rn : Reg} {s : State}

theorem exec_modmul_of_modulus_zero (hn : readReg s rn = 0) :
    exec (.modmul rd ra rb rn) s = .next (fail .modulusZero s) :=
  if_pos hn

theorem exec_modmul_of_modulus_ne_zero (hn : readReg s rn ≠ 0) :
    exec (.modmul rd ra rb rn) s = .next (doneWrite rd (readReg s ra * readReg s rb % readReg s rn) s) :=
  if_neg hn

theorem exec_modexp_of_modulus_zero (hn : readReg s rn = 0) :
    exec (.modexp rd ra rb rn) s = .next (fail .modulusZero s) :=
  if_pos hn

/-- The loop of 40_modmul_modexp.md R68 computes the power of R67. -/
theorem exec_modexp_of_modulus_ne_zero (hn : readReg s rn ≠ 0) :
    exec (.modexp rd ra rb rn) s = .next (doneWrite rd (readReg s ra ^ readReg s rb % readReg s rn) s) := by
  rw [← powMod_eq _ _ _ (Nat.pos_of_ne_zero hn)]
  exact if_neg hn

theorem exec_modinv_of_modulus_zero (hn : readReg s rn = 0) :
    exec (.modinv rd ra rn) s = .next (fail .modulusZero s) :=
  if_pos hn

theorem exec_modinv_of_gcd_ne_one (hn : readReg s rn ≠ 0) (hg : Nat.gcd (readReg s ra) (readReg s rn) ≠ 1) :
    exec (.modinv rd ra rn) s = .next (fail .divisionError s) := by
  obtain ⟨hgcd, -, -⟩ := extendedEuclid_spec (readReg s ra) (readReg s rn) (Nat.pos_of_ne_zero hn)
  rw [exec, execModinv, if_neg hn, if_pos (hgcd ▸ hg)]

theorem exec_modinv_of_gcd_eq_one (hn : readReg s rn ≠ 0) (hg : Nat.gcd (readReg s ra) (readReg s rn) = 1) :
    exec (.modinv rd ra rn) s = .next (doneWrite rd (extendedEuclid (readReg s ra) (readReg s rn)).2 s) := by
  obtain ⟨hgcd, -, -⟩ := extendedEuclid_spec (readReg s ra) (readReg s rn) (Nat.pos_of_ne_zero hn)
  rw [exec, execModinv, if_neg hn, if_neg (not_not_intro (hgcd.trans hg))]

theorem exec_tdiv (rn : Reg) (s : State) :
    exec (.tdiv rn) s = .next (doneVerdict (passesTrialDivision (readReg s rn)) s) := rfl

theorem exec_mrround_of_lt_two (hn : readReg s rn < 2) : exec (.mrround rn ra) s = .next (fail .invalidInput s) :=
  if_pos hn

theorem exec_mrround_of_out_of_range (hn : ¬ readReg s rn < 2)
    (ha : readReg s ra < 2 ∨ readReg s rn - 1 < readReg s ra) :
    exec (.mrround rn ra) s = .next (fail .witnessRange s) := by
  rw [exec, execMrround, if_neg hn, if_pos ha]

theorem exec_mrround_of_in_range (hn : ¬ readReg s rn < 2)
    (ha : ¬ (readReg s ra < 2 ∨ readReg s rn - 1 < readReg s ra)) :
    exec (.mrround rn ra) s = .next (doneVerdict (witnessPasses (readReg s rn) (readReg s ra)) s) := by
  rw [exec, execMrround, if_neg hn, if_neg ha]

end

/-- What PTEST makes of a state, by how it stands after its answers (42_primality.md R84). -/
def afterPtest : PtestResult → State → State
  | .invalidInput => fail .invalidInput
  | .witnessRange => fail .witnessRange
  | .composite => doneVerdict false
  | .probablyPrime => doneVerdict true
  | .waiting => id

theorem exec_ptest_of_result {rn : Reg} {rounds : Nat} {s : State} {result : PtestResult}
    (h : ptestResult (readReg s rn) rounds s.answers = result) :
    exec (.ptest rn rounds) s = .next (afterPtest result s) := by
  rw [exec, execPtest, h]
  cases result <;> rfl

/-! ## Two states in which a command ends alike -/

/-- The command ends in one way in both states, by the same error, verdict or destination value, or waits in both. -/
inductive EndsAlike (i : Instr) (s t : State) : Prop where
  | fail (e : ErrCode) (hne : e ≠ .noError) (hs : exec i s = .next (fail e s)) (ht : exec i t = .next (fail e t))
  | verdict (b : Bool) (hd : destination i = none) (hs : exec i s = .next (doneVerdict b s))
      (ht : exec i t = .next (doneVerdict b t))
  | write (rd : Reg) (v : Nat) (hd : destination i = some rd) (hs : exec i s = .next (doneWrite rd v s))
      (ht : exec i t = .next (doneWrite rd v t))
  | wait (hi : ∃ rn rounds, i = .ptest rn rounds) (hs : exec i s = .next s) (ht : exec i t = .next t)

/-- A command that ends alike gives the same STATUS, `PEND` and destination value, unless it is a PTEST that waits. -/
theorem EndsAlike.same_outcome {i : Instr} {s t s' t' : State} (h : EndsAlike i s t) (hs' : exec i s = .next s')
    (ht' : exec i t = .next t') :
    ((∃ rn rounds, i = .ptest rn rounds) ∧ s' = s ∧ t' = t) ∨
    (s'.status = t'.status ∧ s'.pend = t'.pend ∧
      ∀ rd, destination i = some rd → s'.status.err = .noError → readReg s' rd = readReg t' rd) := by
  cases h with
  | fail e hne hs ht =>
    cases hs.symm.trans hs'
    cases ht.symm.trans ht'
    exact .inr ⟨rfl, rfl, fun _ _ herr => absurd herr hne⟩
  | verdict b hd hs ht =>
    cases hs.symm.trans hs'
    cases ht.symm.trans ht'
    exact .inr ⟨rfl, rfl, fun _ hrd => by cases hd.symm.trans hrd⟩
  | write rd v hd hs ht =>
    cases hs.symm.trans hs'
    cases ht.symm.trans ht'
    refine .inr ⟨rfl, rfl, fun q hq _ => ?_⟩
    obtain rfl : rd = q := Option.some.inj (hd.symm.trans hq)
    simp
  | wait hi hs ht =>
    cases hs.symm.trans hs'
    cases ht.symm.trans ht'
    exact .inl ⟨hi, rfl, rfl⟩

/-- A command with a destination never waits. -/
theorem EndsAlike.same_result {i : Instr} {rd : Reg} {s t s' t' : State} (h : EndsAlike i s t)
    (hd : destination i = some rd) (hs' : exec i s = .next s') (ht' : exec i t = .next t') :
    s'.status = t'.status ∧ (s'.status.err = .noError → readReg s' rd = readReg t' rd) := by
  obtain ⟨⟨_, _, rfl⟩, -⟩ | ⟨hstatus, -, hdest⟩ := h.same_outcome hs' ht'
  · cases hd
  · exact ⟨hstatus, hdest rd hd⟩

section
variable {rd ra rb rn : Reg} {s t : State}

theorem endsAlike_modmul (hn : readReg s rn = readReg t rn) (hb : readReg s rb = readReg t rb)
    (ha : readReg s ra = readReg t ra) : EndsAlike (.modmul rd ra rb rn) s t := by
  by_cases h0 : readReg t rn = 0
  · exact .fail .modulusZero (by decide) (exec_modmul_of_modulus_zero (hn.trans h0)) (exec_modmul_of_modulus_zero h0)
  · refine .write rd _ rfl ?_ (exec_modmul_of_modulus_ne_zero h0)
    rw [exec_modmul_of_modulus_ne_zero (hn ▸ h0), ha, hb, hn]

/-- The base counts only modulo the modulus (40_modmul_modexp.md R67). -/
theorem endsAlike_modexp (hn : readReg s rn = readReg t rn) (hb : readReg s rb = readReg t rb)
    (ha : readReg s ra % readReg s rn = readReg t ra % readReg t rn) : EndsAlike (.modexp rd ra rb rn) s t := by
  by_cases h0 : readReg t rn = 0
  · exact .fail .modulusZero (by decide) (exec_modexp_of_modulus_zero (hn.trans h0)) (exec_modexp_of_modulus_zero h0)
  · refine .write rd _ rfl ?_ (exec_modexp_of_modulus_ne_zero h0)
    rw [exec_modexp_of_modulus_ne_zero (hn ▸ h0), Nat.pow_mod, ha, hb, hn, ← Nat.pow_mod]

/-- The algorithm of 41_modinv.md R76 starts from the value reduced modulo the modulus. -/
theorem extendedEuclid_congr {a a' b : Nat} (h : a % b = a' % b) : extendedEuclid a b = extendedEuclid a' b := by
  rw [extendedEuclid, h, extendedEuclid]

/-- The value counts only modulo the modulus (41_modinv.md R75). -/
theorem endsAlike_modinv (hn : readReg s rn = readReg t rn)
    (ha : readReg s ra % readReg s rn = readReg t ra % readReg t rn) : EndsAlike (.modinv rd ra rn) s t := by
  rw [hn] at ha
  have hgcd : Nat.gcd (readReg s ra) (readReg s rn) = Nat.gcd (readReg t ra) (readReg t rn) := by
    rw [hn]
    exact Nat.ModEq.gcd_eq ha
  by_cases h0 : readReg t rn = 0
  · exact .fail .modulusZero (by decide) (exec_modinv_of_modulus_zero (hn.trans h0)) (exec_modinv_of_modulus_zero h0)
  · by_cases h1 : Nat.gcd (readReg t ra) (readReg t rn) = 1
    · refine .write rd _ rfl ?_ (exec_modinv_of_gcd_eq_one h0 h1)
      rw [exec_modinv_of_gcd_eq_one (hn ▸ h0) (hgcd.trans h1), hn, extendedEuclid_congr ha]
    · exact .fail .divisionError (by decide) (exec_modinv_of_gcd_ne_one (hn ▸ h0) (hgcd ▸ h1))
        (exec_modinv_of_gcd_ne_one h0 h1)

theorem endsAlike_tdiv (hn : readReg s rn = readReg t rn) : EndsAlike (.tdiv rn) s t :=
  .verdict _ rfl (by rw [exec_tdiv, hn]) (exec_tdiv rn t)

theorem endsAlike_mrround (hn : readReg s rn = readReg t rn) (ha : readReg s ra = readReg t ra) :
    EndsAlike (.mrround rn ra) s t := by
  by_cases h2 : readReg t rn < 2
  · exact .fail .invalidInput (by decide) (exec_mrround_of_lt_two (hn ▸ h2)) (exec_mrround_of_lt_two h2)
  · by_cases hr : readReg t ra < 2 ∨ readReg t rn - 1 < readReg t ra
    · exact .fail .witnessRange (by decide) (exec_mrround_of_out_of_range (hn ▸ h2) (by rwa [hn, ha]))
        (exec_mrround_of_out_of_range h2 hr)
    · refine .verdict _ rfl ?_ (exec_mrround_of_in_range h2 hr)
      rw [exec_mrround_of_in_range (hn ▸ h2) (by rwa [hn, ha]), hn, ha]

theorem endsAlike_ptest (rounds : Nat) (hn : readReg s rn = readReg t rn) (hans : s.answers = t.answers) :
    EndsAlike (.ptest rn rounds) s t := by
  have ht : exec (.ptest rn rounds) t = .next (afterPtest (ptestResult (readReg t rn) rounds t.answers) t) :=
    exec_ptest_of_result rfl
  have hs : exec (.ptest rn rounds) s = .next (afterPtest (ptestResult (readReg t rn) rounds t.answers) s) :=
    exec_ptest_of_result (by rw [hn, hans])
  cases hres : ptestResult (readReg t rn) rounds t.answers <;> rw [hres] at hs ht
  case invalidInput => exact .fail _ (by decide) hs ht
  case witnessRange => exact .fail _ (by decide) hs ht
  case composite => exact .verdict _ rfl hs ht
  case probablyPrime => exact .verdict _ rfl hs ht
  case waiting => exact .wait ⟨rn, rounds, rfl⟩ hs ht

end

/-- A command ends alike in two states that agree on its sources and on the answers (40_modmul_modexp.md R65). -/
theorem endsAlike_of_sources {i : Instr} {s t : State} (hsrc : ∀ r ∈ sources i, readReg s r = readReg t r)
    (hans : s.answers = t.answers) : EndsAlike i s t := by
  cases i with
  | modmul rd ra rb rn =>
    exact endsAlike_modmul (hsrc rn (by simp [sources])) (hsrc rb (by simp [sources])) (hsrc ra (by simp [sources]))
  | modexp rd ra rb rn =>
    have hn := hsrc rn (by simp [sources])
    exact endsAlike_modexp hn (hsrc rb (by simp [sources])) (by rw [hn, hsrc ra (by simp [sources])])
  | modinv rd ra rn =>
    have hn := hsrc rn (by simp [sources])
    exact endsAlike_modinv hn (by rw [hn, hsrc ra (by simp [sources])])
  | tdiv rn => exact endsAlike_tdiv (hsrc rn (by simp [sources]))
  | mrround rn ra => exact endsAlike_mrround (hsrc rn (by simp [sources])) (hsrc ra (by simp [sources]))
  | ptest rn rounds => exact endsAlike_ptest rounds (hsrc rn (by simp [sources])) hans

theorem stepAt_of_agenda_nil (W : Nat) {s : State} (h : s.agenda = []) : stepAt W s = engineTurn s := by
  simp only [stepAt, h]

/-! ## The statements -/

/-- Settles O15: the loop computes the power, and the corner cases are those of the power. -/
theorem modexpWritesPower : Obligations.ModexpWritesPower := by
  unfold Obligations.ModexpWritesPower
  refine ⟨fun rd ra rb rn s => ⟨exec_modexp_of_modulus_zero, fun hn => ?_⟩, fun s h1 h2 h0 => ?_⟩
  · refine ⟨exec_modexp_of_modulus_ne_zero hn, Nat.mod_lt _ (Nat.pos_of_ne_zero hn), fun he => ?_, fun h1 => ?_,
      fun hb he => ?_, Nat.pow_mod _ _ _⟩
    · rw [he, Nat.pow_zero]
    · rw [h1, Nat.mod_one]
    · rw [hb, Nat.zero_pow he, Nat.zero_mod]
  · refine ⟨_, exec_modexp_of_modulus_ne_zero (by rw [h0]; decide), ?_⟩
    rw [readReg_doneWrite, if_pos rfl, h1, h2, h0]
    decide

/-- Settles O17: congruent operands end both commands alike. -/
theorem operandsCountModuloModulus : Obligations.OperandsCountModuloModulus := by
  unfold Obligations.OperandsCountModuloModulus
  exact fun rd ra rb rn s t s' t' hn hb ha =>
    ⟨(endsAlike_modexp hn hb ha).same_result rfl, (endsAlike_modinv hn ha).same_result rfl⟩

/-- Settles O32: a command ends alike in states that agree on what it reads. -/
theorem outcomeDependsOnSourcesOnly : Obligations.OutcomeDependsOnSourcesOnly := by
  unfold Obligations.OutcomeDependsOnSourcesOnly
  exact fun i s t s' t' hsrc hans => (endsAlike_of_sources hsrc hans).same_outcome

/-- Settles O8: both agendas give the engine its turn, which runs the decoded command. -/
theorem stepRunsDecodedCommand : Obligations.StepRunsDecodedCommand := by
  unfold Obligations.StepRunsDecodedCommand
  intro s w i hb hp hi
  exact ⟨fun ha => (stepAt_of_agenda_nil _ ha).trans (engineTurn_of_legal hb hp hi),
    fun rest ha => (stepAt_engine _ ha).trans (engineTurn_of_legal hb hp hi)⟩

/-- Settles O14: the product by the modulus, and its corner cases. -/
theorem modmulWritesProduct : Obligations.ModmulWritesProduct := by
  unfold Obligations.ModmulWritesProduct
  refine ⟨fun rd ra rb rn s => ⟨exec_modmul_of_modulus_zero, fun hn => ?_⟩, fun s h0 h5 h3 => ?_⟩
  · refine ⟨exec_modmul_of_modulus_ne_zero hn, Nat.mod_lt _ (Nat.pos_of_ne_zero hn), fun h1 => ?_, fun hzero => ?_⟩
    · rw [h1, Nat.mod_one]
    · rw [Nat.mul_eq_zero.2 hzero, Nat.zero_mod]
  · refine ⟨_, exec_modmul_of_modulus_ne_zero (by rw [h0]; decide), ?_⟩
    rw [readReg_doneWrite, if_pos rfl, h0, h5, h3]

end Sys2Proof.Machine

/-! # Lemmas and proofs of the statements of 41_modinv.md

The inverse below the modulus as a predicate on numbers: the algorithm gives one, there is at most one, and the corner
cases name it; then the statement. -/

namespace Sys2Proof.Machine

/-- `y` is an inverse of `a` in `0 .. b - 1` (41_modinv.md R75). -/
def IsInverseBelow (a b y : Nat) : Prop := y ≤ b - 1 ∧ a * y % b = 1 % b

/-- Where the gcd is 1, the coefficient that the algorithm of 41_modinv.md R76 ends with is an inverse. -/
theorem isInverseBelow_extendedEuclid {a b : Nat} (hb : b ≠ 0) (hg : Nat.gcd a b = 1) :
    IsInverseBelow a b (extendedEuclid a b).2 := by
  obtain ⟨-, hlt, hmul⟩ := extendedEuclid_spec a b (Nat.pos_of_ne_zero hb)
  rw [hg, Nat.mul_comm] at hmul
  exact ⟨Nat.le_sub_one_of_lt hlt, hmul⟩

/-- Two inverses are congruent, because `a` is coprime to `b` and cancels, and below `b` congruent numbers are equal. -/
theorem IsInverseBelow.unique {a b y z : Nat} (hb : b ≠ 0) (hg : Nat.gcd a b = 1) (hz : IsInverseBelow a b z)
    (hy : IsInverseBelow a b y) : z = y := by
  obtain ⟨hzle, hzmul⟩ := hz
  obtain ⟨hyle, hymul⟩ := hy
  have hcancel : z ≡ y [MOD b] :=
    Nat.ModEq.cancel_left_of_coprime ((Nat.gcd_comm b a).trans hg) (hzmul.trans hymul.symm)
  exact hcancel.eq_of_lt_of_lt (by omega) (by omega)

theorem isInverseBelow_one {b : Nat} (hb : 2 ≤ b) : IsInverseBelow 1 b 1 := ⟨by omega, rfl⟩

/-- `b - 1` is its own inverse: its square is `1 + b * (b - 2)`. -/
theorem isInverseBelow_pred {b : Nat} (hb : 2 ≤ b) : IsInverseBelow (b - 1) b (b - 1) := by
  obtain ⟨k, rfl⟩ := Nat.exists_eq_add_of_le hb
  have hsquare : (2 + k - 1) * (2 + k - 1) = 1 + (2 + k) * k := by
    rw [show 2 + k - 1 = k + 1 by omega]
    ring
  exact ⟨le_rfl, by rw [hsquare, Nat.add_mul_mod_self_left]⟩

/-- Settles O16: the algorithm ends with the gcd and, where that is 1, with the one inverse below the modulus. -/
theorem modinvWritesInverse : Obligations.ModinvWritesInverse := by
  unfold Obligations.ModinvWritesInverse
  refine ⟨fun rd ra rn s => ⟨exec_modinv_of_modulus_zero, exec_modinv_of_gcd_ne_one, fun hn hg => ?_, fun ha hn => ?_⟩,
    fun s h1 h0 => ?_⟩
  · have hy := isInverseBelow_extendedEuclid hn hg
    have hunique {z : Nat} (hz : IsInverseBelow (readReg s ra) (readReg s rn) z) := hz.unique hn hg hy
    obtain ⟨hle, hmul⟩ := hy
    refine ⟨_, exec_modinv_of_gcd_eq_one hn hg, hle, hmul, fun z hzle hzmul => hunique ⟨hzle, hzmul⟩, ?_,
      fun hone => ?_, fun ha hb => ?_, fun ha hb => ?_⟩
    · rw [Nat.mod_mul_mod, hmul]
    · omega
    · exact (hunique (ha ▸ isInverseBelow_one hb)).symm
    · exact (hunique (ha ▸ isInverseBelow_pred hb)).symm
  · have hgcd : Nat.gcd (readReg s ra) (readReg s rn) = readReg s rn := by rw [ha, Nat.gcd_zero_left]
    exact exec_modinv_of_gcd_ne_one (by omega) (by omega)
  · refine ⟨_, exec_modinv_of_gcd_eq_one (by rw [h0]; decide) (by rw [h1, h0]; decide), ?_⟩
    rw [readReg_doneWrite, if_pos rfl, h1, h0]
    decide

end Sys2Proof.Machine

/-! # Lemmas and proofs of the statements of 42_primality.md

Trial division by the primes up to 349, the decomposition of `n - 1`, the witnesses that pass for `n - 1`, for even `n` and
for a prime, and PTEST by the answers it meets; then the statements, each from these. -/

namespace Sys2Proof.Machine

/-! ## Trial division -/

/-- The table is the primes up to 349. -/
theorem passesTrialDivision_iff_no_prime (c : Nat) :
    passesTrialDivision c = true ↔ ∀ p, Nat.Prime p → p ≤ 349 → ¬ p ∣ c := by
  rw [passesTrialDivision_iff]
  simp only [mem_smallPrimes_iff, and_imp]

theorem passesTrialDivision_eq_false {c p : Nat} (hp : Nat.Prime p) (hle : p ≤ 349) (hdvd : p ∣ c) :
    passesTrialDivision c = false :=
  Bool.eq_false_iff.2 fun hpass => (passesTrialDivision_iff_no_prime c).1 hpass p hp hle hdvd

/-- A power of a prime above the table, 1 among them, has no divisor in the table. -/
theorem passesTrialDivision_prime_pow {q : Nat} (hq : Nat.Prime q) (hlt : 349 < q) (k : Nat) :
    passesTrialDivision (q ^ k) = true := by
  refine (passesTrialDivision_iff_no_prime _).2 fun p hp hle hdvd => ?_
  have heq : p = q := Nat.prime_eq_prime_of_dvd_pow hp hq hdvd
  omega

/-- The least prime factor of a composite below `353 * 353` is below 353, so it is in the table. -/
theorem prime_of_passesTrialDivision {c : Nat} (h2 : 2 ≤ c) (hlt : c < 124609) (hpass : passesTrialDivision c = true) :
    Nat.Prime c := by
  by_contra hcomposite
  have hprime : Nat.Prime c.minFac := Nat.minFac_prime (by omega)
  have hsq : c.minFac ^ 2 ≤ c := Nat.minFac_sq_le_self (by omega) hcomposite
  have hbelow : c.minFac < 353 := by nlinarith
  have habove : 349 < c.minFac := by
    by_contra hle
    exact (passesTrialDivision_iff_no_prime c).1 hpass _ hprime (by omega) c.minFac_dvd
  have hcases : c.minFac = 350 ∨ c.minFac = 351 ∨ c.minFac = 352 := by omega
  obtain h | h | h := hcases <;> rw [h] at hprime <;> norm_num at hprime

/-! ## The decomposition of `n - 1` -/

/-- For even `n` the predecessor is its own odd part. -/
theorem decompose_of_even {n : Nat} (hn : 2 ≤ n) (heven : n % 2 = 0) : decompose n = (0, n - 1) :=
  decompose_eq hn (by rw [Nat.pow_zero, Nat.one_mul]) (by omega)

theorem one_le_decompose_fst_iff {n : Nat} (hn : 2 ≤ n) : 1 ≤ (decompose n).1 ↔ n % 2 = 1 := by
  obtain ⟨hsplit, hodd⟩ := decompose_spec n hn
  constructor
  · intro hs
    have hdvd : 2 ∣ n - 1 := hsplit ▸ (dvd_pow_self 2 (by omega)).mul_right _
    omega
  · intro hnodd
    by_contra hs
    rw [Nat.lt_one_iff.1 (not_le.1 hs), Nat.pow_zero, Nat.one_mul] at hsplit
    omega

/-- No further factor 2 is left in the odd part. -/
theorem not_two_pow_succ_decompose_dvd {n : Nat} (hn : 2 ≤ n) : ¬ 2 ^ ((decompose n).1 + 1) ∣ n - 1 := by
  obtain ⟨hsplit, hodd⟩ := decompose_spec n hn
  rw [Nat.pow_succ]
  intro hdvd
  have htwo : 2 ∣ (decompose n).2 := Nat.dvd_of_mul_dvd_mul_left (by positivity) (hsplit ▸ hdvd)
  omega

theorem decompose_fst_lt {n W : Nat} (hn : 2 ≤ n) (hW : n < 2 ^ W) : (decompose n).1 < W := by
  obtain ⟨hsplit, hodd⟩ := decompose_spec n hn
  have hle : 2 ^ (decompose n).1 ≤ n - 1 := hsplit ▸ Nat.le_mul_of_pos_right _ (by omega)
  exact (Nat.pow_lt_pow_iff_right (by decide)).1 (by omega : 2 ^ (decompose n).1 < 2 ^ W)

/-! ## Witnesses that pass -/

/-- `n - 1` is its own inverse, so an odd power of it is `n - 1`. -/
theorem pred_pow_odd_mod {n t : Nat} (hn : 2 ≤ n) (ht : t % 2 = 1) : (n - 1) ^ t % n = n - 1 := by
  obtain ⟨-, hsquare⟩ := isInverseBelow_pred hn
  have hmod : (n - 1) ^ t ≡ n - 1 [MOD n] := by
    calc (n - 1) ^ t = ((n - 1) * (n - 1)) ^ (t / 2) * (n - 1) := by
          rw [← pow_two, ← pow_mul, ← pow_succ, show 2 * (t / 2) + 1 = t by omega]
      _ ≡ 1 ^ (t / 2) * (n - 1) [MOD n] := (Nat.ModEq.pow _ hsquare).mul_right _
      _ = n - 1 := by rw [one_pow, one_mul]
  exact Eq.trans hmod (Nat.mod_eq_of_lt (by omega))

/-- `n - 1` passes for every `n` (42_primality.md R83). -/
theorem witnessPasses_pred {n : Nat} (hn : 2 ≤ n) : witnessPasses n (n - 1) = true := by
  obtain ⟨-, hodd⟩ := decompose_spec n hn
  exact (witnessPasses_iff n _ hn).2 (.inr (.inl (pred_pow_odd_mod hn hodd)))

/-- For even `n` nothing is squared (42_primality.md R86). -/
theorem witnessPasses_iff_of_even {n : Nat} (a : Nat) (hn : 2 ≤ n) (heven : n % 2 = 0) :
    witnessPasses n a = true ↔ a ^ (n - 1) % n = 1 ∨ a ^ (n - 1) % n = n - 1 := by
  have hnosquare : ¬ ∃ j, 1 ≤ j ∧ j ≤ 0 - 1 ∧ a ^ ((n - 1) * 2 ^ j) % n = n - 1 := by
    rintro ⟨j, hj1, hj0, -⟩
    omega
  rw [witnessPasses_iff n a hn, decompose_of_even hn heven, or_iff_left hnosquare]

/-- Without zero divisors the only square roots of 1 are 1 and -1, so repeated squaring reaches 1 from 1 or through -1. -/
theorem eq_one_or_pow_two_pow_eq_neg_one {R : Type} [Ring R] [NoZeroDivisors R] {x : R} :
    ∀ {s : Nat}, x ^ 2 ^ s = 1 → x = 1 ∨ ∃ j < s, x ^ 2 ^ j = -1
  | 0, h => .inl (by rwa [pow_zero, pow_one] at h)
  | s + 1, h => by
    rw [pow_succ, pow_mul, pow_two, mul_self_eq_one_iff] at h
    obtain hone | hneg := h
    · exact (eq_one_or_pow_two_pow_eq_neg_one hone).imp_right fun ⟨j, hj, hpow⟩ => ⟨j, by omega, hpow⟩
    · exact .inr ⟨s, by omega, hneg⟩

/-- A power is 1 in the ring modulo `n` exactly when its remainder is 1. -/
theorem zmod_pow_eq_one_iff {n : Nat} (a e : Nat) (hn : 2 ≤ n) : (a : ZMod n) ^ e = 1 ↔ a ^ e % n = 1 := by
  rw [← Nat.cast_pow, ← Nat.cast_one, ZMod.natCast_eq_natCast_iff', Nat.mod_eq_of_lt (by omega : 1 < n)]

/-- A power is -1 in the ring modulo `n` exactly when its remainder is `n - 1`. -/
theorem zmod_pow_eq_neg_one_iff {n : Nat} (a e : Nat) (hn : 2 ≤ n) :
    (a : ZMod n) ^ e = -1 ↔ a ^ e % n = n - 1 := by
  have hneg : (-1 : ZMod n) = ((n - 1 : Nat) : ZMod n) := by
    rw [Nat.cast_sub (by omega), ZMod.natCast_self, Nat.cast_one, zero_sub]
  rw [hneg, ← Nat.cast_pow, ZMod.natCast_eq_natCast_iff', Nat.mod_eq_of_lt (by omega : n - 1 < n)]

/-- A prime passes every witness: its ring is a field, where `a ^ (n - 1)` is 1 by Fermat. -/
theorem witnessPasses_of_prime {n a : Nat} (hp : Nat.Prime n) (h1 : 1 ≤ a) (ha : a ≤ n - 1) :
    witnessPasses n a = true := by
  have hn : 2 ≤ n := hp.two_le
  have : Fact (Nat.Prime n) := ⟨hp⟩
  obtain ⟨hsplit, -⟩ := decompose_spec n hn
  have ha0 : (a : ZMod n) ≠ 0 := fun h0 =>
    absurd (Nat.le_of_dvd h1 ((ZMod.natCast_eq_zero_iff a n).1 h0)) (by omega)
  have hfermat : ((a : ZMod n) ^ (decompose n).2) ^ 2 ^ (decompose n).1 = 1 := by
    rw [← pow_mul, Nat.mul_comm, ← hsplit]
    exact ZMod.pow_card_sub_one_eq_one ha0
  rw [witnessPasses_iff n a hn]
  obtain hone | ⟨j, hj, hneg⟩ := eq_one_or_pow_two_pow_eq_neg_one hfermat
  · exact .inl ((zmod_pow_eq_one_iff a _ hn).1 hone)
  · rw [← pow_mul, zmod_pow_eq_neg_one_iff a _ hn] at hneg
    obtain rfl | hj1 := Nat.eq_zero_or_pos j
    · rw [Nat.pow_zero, Nat.mul_one] at hneg
      exact .inr (.inl hneg)
    · exact .inr (.inr ⟨j, hj1, by omega, hneg⟩)

theorem goodAnswer_pred {n : Nat} (hn : 3 ≤ n) : GoodAnswer n (n - 1) :=
  ⟨by omega, le_rfl, (mrPass_iff (by omega)).2 (witnessPasses_pred (by omega))⟩

theorem goodAnswer_of_prime {n a : Nat} (hp : Nat.Prime n) (h2 : 2 ≤ a) (ha : a ≤ n - 1) : GoodAnswer n a :=
  ⟨h2, ha, (mrPass_iff hp.two_le).2 (witnessPasses_of_prime hp (by omega) ha)⟩

/-! ## PTEST by the answers it meets -/

theorem ptestResult_of_lt_two {n : Nat} (hn : n < 2) (rounds : Nat) (answers : List Nat) :
    ptestResult n rounds answers = .invalidInput :=
  if_pos hn

theorem ptestResult_two (rounds : Nat) (answers : List Nat) : ptestResult 2 rounds answers = .probablyPrime := rfl

theorem ptestResult_of_three_le {n : Nat} (hn : 3 ≤ n) (rounds : Nat) (answers : List Nat) :
    ptestResult n rounds answers = ptestRounds n rounds answers := by
  rw [ptestResult, if_neg (by omega), if_neg (by omega)]

section
variable {rn : Reg} {rounds a : Nat} {pre post : List Nat} {s : State}

/-- From `n = 3` on, good answers in front leave the rest of the rounds to the rest of the answers. -/
theorem ptestResult_of_good_prefix {n k : Nat} (hn : 3 ≤ n) (hgood : ∀ b ∈ pre, GoodAnswer n b)
    (hrounds : rounds = pre.length + k) : ptestResult n rounds (pre ++ post) = ptestRounds n k post := by
  rw [ptestResult_of_three_le hn, hrounds]
  exact ptestRounds_append n pre post k fun b hb => (goodAnswer_iff (by omega)).1 (hgood b hb)

/-- A round that has its answer goes by that answer. -/
theorem ptestResult_of_answer {n : Nat} (hn : 3 ≤ n) (hgood : ∀ b ∈ pre, GoodAnswer n b) (hlt : pre.length < rounds) :
    ∃ k, ptestResult n rounds (pre ++ a :: post) = ptestRounds n (k + 1) (a :: post) := by
  obtain ⟨k, hk⟩ := Nat.exists_eq_add_of_lt hlt
  exact ⟨k, ptestResult_of_good_prefix hn hgood hk⟩

theorem exec_ptest_of_lt_two (hn : readReg s rn < 2) : exec (.ptest rn rounds) s = .next (failed s .invalidInput) :=
  exec_ptest_of_result (ptestResult_of_lt_two hn _ _)

theorem exec_ptest_of_two (hn : readReg s rn = 2) : exec (.ptest rn rounds) s = .next (completed s true) :=
  exec_ptest_of_result (hn ▸ ptestResult_two _ _)

theorem exec_ptest_of_good_answers (hn : 3 ≤ readReg s rn) (hlen : rounds ≤ s.answers.length)
    (hgood : ∀ a ∈ s.answers.take rounds, GoodAnswer (readReg s rn) a) :
    exec (.ptest rn rounds) s = .next (completed s true) := by
  have hresult : ptestResult (readReg s rn) rounds s.answers = .probablyPrime := by
    rw [← List.take_append_drop rounds s.answers,
      ptestResult_of_good_prefix (k := 0) hn hgood (List.length_take_of_le hlen).symm, ptestRounds]
  exact exec_ptest_of_result hresult

theorem exec_ptest_of_answer_out_of_range (hn : 3 ≤ readReg s rn) (hans : s.answers = pre ++ a :: post)
    (hlt : pre.length < rounds) (hgood : ∀ b ∈ pre, GoodAnswer (readReg s rn) b)
    (ha : a < 2 ∨ readReg s rn - 1 < a) : exec (.ptest rn rounds) s = .next (failed s .witnessRange) := by
  have hresult : ptestResult (readReg s rn) rounds s.answers = .witnessRange := by
    obtain ⟨k, hk⟩ := ptestResult_of_answer hn hgood hlt
    rw [hans, hk, ptestRounds, if_pos ha]
  exact exec_ptest_of_result hresult

theorem exec_ptest_of_failing_answer (hn : 3 ≤ readReg s rn) (hans : s.answers = pre ++ a :: post)
    (hlt : pre.length < rounds) (hgood : ∀ b ∈ pre, GoodAnswer (readReg s rn) b)
    (h2 : 2 ≤ a) (ha : a ≤ readReg s rn - 1) (hfail : ¬ MRPass (readReg s rn) a) :
    exec (.ptest rn rounds) s = .next (completed s false) := by
  have hresult : ptestResult (readReg s rn) rounds s.answers = .composite := by
    obtain ⟨k, hk⟩ := ptestResult_of_answer hn hgood hlt
    rw [mrPass_iff (by omega)] at hfail
    rw [hans, hk, ptestRounds, if_neg (by omega), if_neg hfail]
  exact exec_ptest_of_result hresult

theorem exec_ptest_of_missing_answer (hn : 3 ≤ readReg s rn) (hlt : s.answers.length < rounds)
    (hgood : ∀ a ∈ s.answers, GoodAnswer (readReg s rn) a) : exec (.ptest rn rounds) s = .next s := by
  have hresult : ptestResult (readReg s rn) rounds s.answers = .waiting := by
    obtain ⟨k, hk⟩ := Nat.exists_eq_add_of_lt hlt
    rw [← List.append_nil s.answers, ptestResult_of_good_prefix (k := k + 1) hn hgood hk, ptestRounds]
  exact exec_ptest_of_result hresult

end

/-- A list with an entry other than `c` has a first one. -/
theorem exists_first_ne {c : Nat} {l : List Nat} (h : ∃ a ∈ l, a ≠ c) :
    ∃ pre a post, l = pre ++ a :: post ∧ a ≠ c ∧ ∀ b ∈ pre, b = c := by
  have hfound : (l.find? (· != c)).isSome := List.find?_isSome.2 (by simpa using h)
  obtain ⟨a, ha⟩ := Option.isSome_iff_exists.1 hfound
  obtain ⟨hne, pre, post, hl, hpre⟩ := List.find?_eq_some_iff_append.1 ha
  exact ⟨pre, a, post, hl, by simpa using hne, by simpa using hpre⟩

/-! ## The statements -/

/-- Settles O19: the table is the primes up to 349, and 353 is the next prime. -/
theorem tdivVerdict : Obligations.TdivVerdict := by
  unfold Obligations.TdivVerdict
  have h353 : Nat.Prime 353 := by norm_num
  refine ⟨fun rn s => ⟨passesTrialDivision (readReg s rn), exec_tdiv rn s, passesTrialDivision_iff _,
    passesTrialDivision_iff_no_prime _, fun hmem => ?_, fun h0 => ?_, fun h1 => ?_, fun h2 => ?_, fun hc => ?_,
    fun hc => ?_, prime_of_passesTrialDivision⟩, fun s h561 => ?_⟩
  · obtain ⟨hp, hle⟩ := (mem_smallPrimes_iff _).1 hmem
    exact passesTrialDivision_eq_false hp hle dvd_rfl
  · exact passesTrialDivision_eq_false Nat.prime_two (by decide) (h0 ▸ dvd_zero 2)
  · rw [h1]
    exact passesTrialDivision_prime_pow h353 (by decide) 0
  · exact passesTrialDivision_eq_false Nat.prime_two (by decide) h2
  · rw [hc]
    exact passesTrialDivision_prime_pow h353 (by decide) 1
  · rw [hc]
    exact passesTrialDivision_prime_pow h353 (by decide) 2
  · have hreject : passesTrialDivision (readReg s 1) = false :=
      passesTrialDivision_eq_false Nat.prime_three (by decide) (by rw [h561]; decide)
    rw [exec_tdiv, hreject]
    rfl

/-- Settles O20: the halvings end at the odd part, and the decomposition is unique. -/
theorem decompositionOfPredecessor : Obligations.DecompositionOfPredecessor := by
  unfold Obligations.DecompositionOfPredecessor
  intro n hn
  obtain ⟨hsplit, hodd⟩ := decompose_spec n hn
  refine ⟨hsplit, hodd, by omega, not_two_pow_succ_decompose_dvd hn, one_le_decompose_fst_iff hn, fun heven => ?_,
    fun W hW => Nat.le_sub_one_of_lt (decompose_fst_lt hn hW)⟩
  rw [decompose_of_even hn heven]
  exact ⟨rfl, rfl⟩

/-- Settles O21: the verdict is the witness function's, and its corner cases are those of `n - 1` and of even `n`. -/
theorem mrroundVerdict : Obligations.MrroundVerdict := by
  unfold Obligations.MrroundVerdict
  refine ⟨fun rn ra s => ⟨exec_mrround_of_lt_two, fun hn ha => exec_mrround_of_out_of_range (by omega) ha,
    fun hn h2 ha => ?_, fun hn => exec_mrround_of_out_of_range (by omega) (by omega), ?_⟩, fun s hn ha => ?_⟩
  · have hpred (h : readReg s ra = readReg s rn - 1) : witnessPasses (readReg s rn) (readReg s ra) = true :=
      h ▸ witnessPasses_pred hn
    exact ⟨_, exec_mrround_of_in_range (by omega) (by omega), (mrPass_iff hn).symm, fun h3 => hpred (by omega), hpred,
      witnessPasses_iff_of_even _ hn⟩
  · rintro rfl
    obtain hlt | hge := Nat.lt_or_ge (readReg s ra) 2
    · exact .inl (exec_mrround_of_lt_two hlt)
    · exact .inr (exec_mrround_of_out_of_range (by omega) (by omega))
  · have hfail : witnessPasses 561 2 = false := by decide +kernel
    rw [exec_mrround_of_in_range (by omega) (by omega), hn, ha, hfail]
    rfl

/-- Settles O22: PTEST ends at the first answer that is not good, or when the rounds are used up. -/
theorem ptestFollowsAnswers : Obligations.PtestFollowsAnswers := by
  unfold Obligations.PtestFollowsAnswers
  exact fun rn rounds s => ⟨exec_ptest_of_lt_two, exec_ptest_of_two, fun hn => ⟨exec_ptest_of_good_answers hn,
    fun pre a post hans hlt hgood => ⟨exec_ptest_of_answer_out_of_range hn hans hlt hgood,
      exec_ptest_of_failing_answer hn hans hlt hgood⟩,
    exec_ptest_of_missing_answer hn⟩⟩

/-- Settles O23: a PTEST on 2 never waits, and for 3 the range of the answers is 2 alone. -/
theorem ptestOfTwoAndThree : Obligations.PtestOfTwoAndThree := by
  unfold Obligations.PtestOfTwoAndThree
  refine ⟨fun rn rounds s hn => ⟨exec_ptest_of_two hn, fun hp hrounds => ?_⟩,
    fun rn rounds s hn hlen => ?_⟩
  · refine Bool.eq_false_iff.2 fun hawaits => ?_
    obtain ⟨-, w, rn', rounds', hw, hdecode, hwait⟩ := (awaitsAnswer_iff s).1 hawaits
    obtain rfl : encode (.ptest rn rounds) = w := Option.some.inj (hp.symm.trans hw)
    rw [decodeOfEncode (.ptest rn rounds) (decide_eq_true hrounds)] at hdecode
    cases hdecode
    rw [hn, ptestResult_two] at hwait
    cases hwait
  · have hgood : ∀ b, b = 2 → GoodAnswer (readReg s rn) b := by
      rintro b rfl
      exact hn ▸ goodAnswer_pred le_rfl
    refine ⟨fun hall => exec_ptest_of_good_answers hn.ge hlen fun a ha => hgood a (hall a ha), fun hex => ?_⟩
    obtain ⟨pre, a, post, htake, hne, hpre⟩ := exists_first_ne hex
    have hans : s.answers = pre ++ a :: (post ++ s.answers.drop rounds) := by
      rw [← List.cons_append, ← List.append_assoc, ← htake, List.take_append_drop]
    have hlt : pre.length < rounds := by
      have hcount := congrArg List.length htake
      rw [List.length_take_of_le hlen, List.length_append, List.length_cons] at hcount
      omega
    exact exec_ptest_of_answer_out_of_range hn.ge hans hlt (fun b hb => hgood b (hpre b hb)) (by omega)

/-- Settles O25: for even `n` the witness function asks for one power only, and `n - 1` passes as for every `n`. -/
theorem evenNumbersAreNotRejected : Obligations.EvenNumbersAreNotRejected := by
  unfold Obligations.EvenNumbersAreNotRejected
  refine ⟨fun n a hn heven _ _ => ⟨witnessPasses_iff_of_even a (by omega) heven, witnessPasses_pred (by omega)⟩,
    fun rn rounds s hn _ hlen hall => exec_ptest_of_good_answers (by omega) hlen fun a ha => ?_, ?_, ?_⟩
  · rw [hall a ha]
    exact goodAnswer_pred (by omega)
  · rw [Bool.eq_false_iff, ne_eq, witnessPasses_iff_of_even 2 (by decide) (by decide)]
    decide
  · exact witnessPasses_pred (n := 4) (by decide)

/-- Settles O27: every answer in range is good for a prime. -/
theorem primeAlwaysPasses : Obligations.PrimeAlwaysPasses := by
  unfold Obligations.PrimeAlwaysPasses
  refine ⟨fun rn ra s hp h2 ha => ?_, fun rn rounds s hp hlen hrange => ?_⟩
  · rw [exec_mrround_of_in_range (by omega) (by omega), witnessPasses_of_prime hp (by omega) ha]
    rfl
  · obtain h2 | h3 := hp.two_le.eq_or_lt
    · exact exec_ptest_of_two h2.symm
    · refine exec_ptest_of_good_answers h3 hlen fun a hmem => ?_
      obtain ⟨ha2, ha⟩ := hrange a hmem
      exact goodAnswer_of_prime hp ha2 ha

/-- Settles O24: no round takes an answer. -/
theorem ptestWithoutRounds : Obligations.PtestWithoutRounds := by
  unfold Obligations.PtestWithoutRounds
  refine fun rn s => ⟨fun hn => ?_, exec_ptest_of_lt_two⟩
  obtain h2 | h3 := hn.eq_or_lt
  · exact exec_ptest_of_two h2.symm
  · exact exec_ptest_of_good_answers h3 (Nat.zero_le _) (by simp)

/-- Settles O26: each witness is evaluated. -/
theorem liarsOf561 : Obligations.LiarsOf561 := by
  unfold Obligations.LiarsOf561
  decide +kernel

end Sys2Proof.Machine

/-! # Lemmas and proofs of the statements of 60_exceptions.md

How PTEST stands after its answers, result by result; the error each command ends with; the completion step by the pending
word; the request on the random-number port; which turns change `ERR`; then the statements, each from these. -/

namespace Sys2Proof.Machine

/-! ## PTEST by its result -/

/-- Within the rounds an answer out of range comes after good ones (42_primality.md R84). -/
def MeetsOutOfRange (n rounds : Nat) (answers : List Nat) : Prop :=
  ∃ pre a post, answers = pre ++ a :: post ∧ pre.length < rounds ∧ (∀ b ∈ pre, GoodAnswer n b) ∧ (a < 2 ∨ n - 1 < a)

/-- A round is missing its answer, and the answers so far are good (60_exceptions.md R128). -/
def LacksAnswer (n rounds : Nat) (answers : List Nat) : Prop :=
  answers.length < rounds ∧ ∀ a ∈ answers, GoodAnswer n a

theorem MeetsOutOfRange.cons {n k a : Nat} {rest : List Nat} (ha : GoodAnswer n a) (h : MeetsOutOfRange n k rest) :
    MeetsOutOfRange n (k + 1) (a :: rest) := by
  obtain ⟨pre, b, post, rfl, hlt, hgood, hb⟩ := h
  exact ⟨a :: pre, b, post, rfl, Nat.succ_lt_succ hlt, List.forall_mem_cons.2 ⟨ha, hgood⟩, hb⟩

theorem LacksAnswer.cons {n k a : Nat} {rest : List Nat} (ha : GoodAnswer n a) (h : LacksAnswer n k rest) :
    LacksAnswer n (k + 1) (a :: rest) :=
  ⟨Nat.succ_lt_succ h.1, List.forall_mem_cons.2 ⟨ha, h.2⟩⟩

/-- The round loop ends with a verdict, at an answer out of range, or where the answers run out. -/
theorem ptestRounds_cases {n : Nat} (hn : 2 ≤ n) : ∀ (k : Nat) (answers : List Nat),
    (ptestRounds n k answers = .probablyPrime ∨ ptestRounds n k answers = .composite) ∨
    (ptestRounds n k answers = .witnessRange ∧ MeetsOutOfRange n k answers) ∨
    (ptestRounds n k answers = .waiting ∧ LacksAnswer n k answers)
  | 0, _ => .inl (.inl rfl)
  | k + 1, [] => .inr (.inr ⟨rfl, Nat.succ_pos k, by simp⟩)
  | k + 1, a :: rest => by
    rw [ptestRounds]
    split
    case isTrue hrange => exact .inr (.inl ⟨rfl, [], a, rest, rfl, Nat.succ_pos k, by simp, hrange⟩)
    case isFalse hrange =>
      split
      case isTrue hpass =>
        have ha : GoodAnswer n a := ⟨by omega, by omega, (mrPass_iff hn).2 hpass⟩
        exact (ptestRounds_cases hn k rest).imp_right
          (Or.imp (And.imp_right (MeetsOutOfRange.cons ha)) (And.imp_right (LacksAnswer.cons ha)))
      case isFalse => exact .inl (.inr rfl)

/-- PTEST by the number under test, then by its rounds. -/
theorem ptestResult_cases (n rounds : Nat) (answers : List Nat) :
    (ptestResult n rounds answers = .invalidInput ∧ n < 2) ∨
    (2 ≤ n ∧ (ptestResult n rounds answers = .probablyPrime ∨ ptestResult n rounds answers = .composite)) ∨
    (ptestResult n rounds answers = .witnessRange ∧ 3 ≤ n ∧ MeetsOutOfRange n rounds answers) ∨
    (ptestResult n rounds answers = .waiting ∧ 3 ≤ n ∧ LacksAnswer n rounds answers) := by
  obtain hlt | rfl | hn : n < 2 ∨ n = 2 ∨ 3 ≤ n := by omega
  · exact .inl ⟨ptestResult_of_lt_two hlt _ _, hlt⟩
  · exact .inr (.inl ⟨le_rfl, .inl (ptestResult_two _ _)⟩)
  · rw [ptestResult_of_three_le hn]
    obtain h | ⟨h, hmeets⟩ | ⟨h, hlacks⟩ := ptestRounds_cases (Nat.le_of_succ_le hn) rounds answers
    · exact .inr (.inl ⟨by omega, h⟩)
    · exact .inr (.inr (.inl ⟨h, hn, hmeets⟩))
    · exact .inr (.inr (.inr ⟨h, hn, hlacks⟩))

theorem ptestResult_eq_invalidInput_iff {n rounds : Nat} {answers : List Nat} :
    ptestResult n rounds answers = .invalidInput ↔ n < 2 := by
  refine ⟨fun h => ?_, fun hn => ptestResult_of_lt_two hn _ _⟩
  obtain ⟨-, hn⟩ | ⟨-, h' | h'⟩ | ⟨h', -⟩ | ⟨h', -⟩ := ptestResult_cases n rounds answers
  · exact hn
  all_goals cases h.symm.trans h'

theorem ptestResult_eq_witnessRange_iff {n rounds : Nat} {answers : List Nat} :
    ptestResult n rounds answers = .witnessRange ↔ 3 ≤ n ∧ MeetsOutOfRange n rounds answers := by
  constructor
  · intro h
    obtain ⟨h', -⟩ | ⟨-, h' | h'⟩ | ⟨-, hmeets⟩ | ⟨h', -⟩ := ptestResult_cases n rounds answers
    case inr.inr.inl => exact hmeets
    all_goals cases h.symm.trans h'
  · rintro ⟨hn, pre, a, post, rfl, hlt, hgood, ha⟩
    obtain ⟨k, hk⟩ := ptestResult_of_answer (a := a) (post := post) hn hgood hlt
    rw [hk, ptestRounds, if_pos ha]

theorem ptestResult_eq_waiting_iff {n rounds : Nat} {answers : List Nat} :
    ptestResult n rounds answers = .waiting ↔ 3 ≤ n ∧ LacksAnswer n rounds answers := by
  constructor
  · intro h
    obtain ⟨h', -⟩ | ⟨-, h' | h'⟩ | ⟨h', -⟩ | ⟨-, hlacks⟩ := ptestResult_cases n rounds answers
    case inr.inr.inr => exact hlacks
    all_goals cases h.symm.trans h'
  · rintro ⟨hn, hlt, hgood⟩
    obtain ⟨k, hk⟩ := Nat.exists_eq_add_of_lt hlt
    rw [← List.append_nil answers, ptestResult_of_good_prefix (k := k + 1) hn hgood hk, ptestRounds]

/-! ## The error each command ends with -/

section
variable {rd ra rb rn : Reg} {s t : State}

theorem err_of_exec_modmul (h : exec (.modmul rd ra rb rn) s = .next t) :
    t.status.err = if readReg s rn = 0 then .modulusZero else .noError := by
  split
  case isTrue hn => cases (exec_modmul_of_modulus_zero hn).symm.trans h; rfl
  case isFalse hn => cases (exec_modmul_of_modulus_ne_zero hn).symm.trans h; rfl

theorem err_of_exec_modexp (h : exec (.modexp rd ra rb rn) s = .next t) :
    t.status.err = if readReg s rn = 0 then .modulusZero else .noError := by
  split
  case isTrue hn => cases (exec_modexp_of_modulus_zero hn).symm.trans h; rfl
  case isFalse hn => cases (exec_modexp_of_modulus_ne_zero hn).symm.trans h; rfl

theorem err_of_exec_modinv (h : exec (.modinv rd ra rn) s = .next t) :
    t.status.err = if readReg s rn = 0 then .modulusZero
      else if Nat.gcd (readReg s ra) (readReg s rn) ≠ 1 then .divisionError else .noError := by
  split_ifs with hn hg
  · cases (exec_modinv_of_modulus_zero hn).symm.trans h; rfl
  · cases (exec_modinv_of_gcd_ne_one hn hg).symm.trans h; rfl
  · cases (exec_modinv_of_gcd_eq_one hn (not_not.1 hg)).symm.trans h; rfl

theorem err_of_exec_mrround (h : exec (.mrround rn ra) s = .next t) :
    t.status.err = if readReg s rn < 2 then .invalidInput
      else if readReg s ra < 2 ∨ readReg s rn - 1 < readReg s ra then .witnessRange else .noError := by
  split_ifs with hn ha
  · cases (exec_mrround_of_lt_two hn).symm.trans h; rfl
  · cases (exec_mrround_of_out_of_range hn ha).symm.trans h; rfl
  · cases (exec_mrround_of_in_range hn ha).symm.trans h; rfl

end

/-- The error of a PTEST is that of its result, if acceptance left none (10_state.md R15). -/
theorem err_afterPtest {s : State} (hs : s.status.err = .noError) (result : PtestResult) :
    ((afterPtest result s).status.err = .invalidInput ↔ result = .invalidInput) ∧
    ((afterPtest result s).status.err = .witnessRange ↔ result = .witnessRange) ∧
    ((afterPtest result s).status.err = .noError ∨ (afterPtest result s).status.err = .invalidInput ∨
      (afterPtest result s).status.err = .witnessRange) := by
  cases result <;> simp [afterPtest, statusFailed, statusDone, hs]

/-! ## The completion step by the pending word -/

theorem completionStep_of_illegal {s : State} {w : Word} {e : Illegal} (hp : s.pend = some w)
    (he : decode w = .error e) : completionStep s = .next (fail .illegalCmd s) := by
  simp only [completionStep, hp, he, failIllegal]

/-- The completion step, when it answers a next state: a decoded command, or an illegal word. -/
theorem completionStep_cases {s t : State} (h : completionStep s = .next t) :
    (∃ w i, s.pend = some w ∧ decode w = .ok i ∧ exec i s = .next t) ∨
    (∃ w e, s.pend = some w ∧ decode w = .error e ∧ t = fail .illegalCmd s) := by
  unfold completionStep at h
  split at h
  case h_1 w hp =>
    split at h
    case h_1 i hi => exact .inl ⟨w, i, hp, hi, h⟩
    case h_2 e he => cases h; exact .inr ⟨w, e, hp, he, rfl⟩
  case h_2 => cases h

theorem engineTurn_of_idle {s : State} (hb : s.status.busy = false) : engineTurn s = .next s := by
  simp only [engineTurn, hb, Bool.false_eq_true, if_false]

/-! ## The undefined source of a strict step -/

theorem undefinedSource_spec {i : Instr} {s : State} {r : Reg} (h : undefinedSource i s = some r) :
    r ∈ sources i ∧ regDefined s r = false :=
  ⟨List.mem_of_find?_eq_some h, by simpa using List.find?_some h⟩

/-! ## The request on the random-number port -/

theorem awaitsAnswer_iff_exists_request (s : State) : awaitsAnswer s = true ↔ ∃ q, rngRequest s = some q :=
  Option.isSome_iff_exists

theorem rngRequest_of_waiting {s : State} {w : Word} {rn : Reg} {rounds : Nat} (hb : s.status.busy = true)
    (hp : s.pend = some w) (hw : decode w = .ok (.ptest rn rounds))
    (hwait : ptestResult (readReg s rn) rounds s.answers = .waiting) :
    rngRequest s = some { lo := 2, hi := readReg s rn - 1 } := by
  simp only [rngRequest, hb, hp, hw, hwait, if_true]

/-- The request that stands is that of a pending PTEST which lacks an answer (60_exceptions.md R128). -/
theorem rngRequest_eq_some_iff (s : State) (q : RngRequest) :
    rngRequest s = some q ↔ s.status.busy = true ∧ ∃ w rn rounds, s.pend = some w ∧
      decode w = .ok (.ptest rn rounds) ∧ (3 ≤ readReg s rn ∧ LacksAnswer (readReg s rn) rounds s.answers) ∧
      q = { lo := 2, hi := readReg s rn - 1 } := by
  constructor
  · intro hq
    obtain ⟨hb, w, rn, rounds, hp, hw, hwait⟩ :=
      (awaitsAnswer_iff s).1 ((awaitsAnswer_iff_exists_request s).2 ⟨q, hq⟩)
    exact ⟨hb, w, rn, rounds, hp, hw, ptestResult_eq_waiting_iff.1 hwait,
      Option.some.inj (hq.symm.trans (rngRequest_of_waiting hb hp hw hwait))⟩
  · rintro ⟨hb, w, rn, rounds, hp, hw, hlacks, rfl⟩
    exact rngRequest_of_waiting hb hp hw (ptestResult_eq_waiting_iff.2 hlacks)

/-! ## The turns that change `ERR` -/

theorem readSlot_status (W : Nat) (slot : Slot) (s : State) : (readSlot W slot s).status = s.status := by
  obtain ⟨v, -, h⟩ | ⟨-, h⟩ := readSlot_cases W slot s <;> rw [h]

theorem softReset_status (W : Nat) (s : State) : (softReset W s).status = Status.reset := by
  obtain ⟨-, h⟩ | ⟨rd, -, h⟩ := softReset_cases W s <;> rw [h] <;> rfl

theorem rngAnswer_status (W draw r : Nat) (s : State) : (rngAnswer W draw r s).status = s.status := by
  obtain ⟨-, -, h⟩ | ⟨-, h⟩ := rngAnswer_cases W draw r s <;> rw [h]

theorem hostPoll_status (W : Nat) (between : List (List OtherTurn)) (rest : List Event) (s : State) :
    (hostPoll W between rest s).status = s.status := by
  rw [hostPoll_eq]

/-- A write changes `ERR` only by clearing it, as an accepted command or as a soft reset. -/
theorem writeSlot_changes_err {W : Nat} {slot : Slot} {v : Word} {s : State}
    (hne : (writeSlot W slot v s).status.err ≠ s.status.err) :
    (writeSlot W slot v s).status.err = .noError ∧ (slot = .cmd ∨ slot = .ctrl ∧ v.getLsbD 0 = true) := by
  obtain ⟨rfl, h⟩ | h | ⟨-, rfl, h⟩ | ⟨r, j, -, -, h⟩ := writeSlot_cases W slot v s
  · refine ⟨by rw [h, softReset_status]; rfl, .inr ⟨rfl, ?_⟩⟩
    by_contra hbit
    rw [writeSlot_of_unwritable W s (.inr (.inr (.inl ⟨rfl, Bool.eq_false_iff.2 hbit⟩)))] at hne
    exact hne rfl
  · rw [h] at hne
    exact absurd rfl hne
  · exact ⟨by rw [h]; rfl, .inl rfl⟩
  · rw [h] at hne
    exact absurd rfl hne

/-- The host changes `ERR` only by clearing it, with a write of `CMD`, a soft reset or a hard reset. -/
theorem hostAct_changes_err {W : Nat} {a : HostAction} {s t : State} (h : hostAct W a s = .next t)
    (hne : t.status.err ≠ s.status.err) :
    t.status.err = .noError ∧ ((∃ v, a = .write 4 0x000 v) ∨
      (∃ v : Word, v.getLsbD 0 = true ∧ a = .write 4 0x008 v) ∨ a = .hardReset) := by
  obtain ⟨size, addr, slot, -, -, rfl⟩ | ⟨size, addr, v, slot, rfl, hok, rfl⟩ | ⟨rfl, rfl⟩ := hostAct_cases h
  · exact absurd (congrArg Status.err (readSlot_status W slot s)) hne
  · obtain ⟨hclear, hslot⟩ := writeSlot_changes_err hne
    obtain rfl := size_of_checkAccess hok
    refine ⟨hclear, ?_⟩
    obtain rfl | ⟨rfl, hbit⟩ := hslot
    · exact .inl ⟨v, by rw [addr_of_checkAccess_cmd hok]⟩
    · exact .inr (.inl ⟨v, hbit, by rw [addr_of_checkAccess_ctrl hok]⟩)
  · exact ⟨rfl, .inr (.inr rfl)⟩

/-- An error is shown only in IDLE (10_state.md R15). -/
theorem Inv.idle_of_err {W : Nat} {s : State} (hs : Inv W s) (herr : s.status.err ≠ .noError) :
    s.status.busy = false := by
  by_contra hb
  rw [hs.busyFlags (Bool.not_eq_false _ ▸ hb)] at herr
  exact herr rfl

/-! ## The statements -/

/-- Settles O28: each command by the cases of its row, PTEST by its result. -/
theorem errorsByCommand : Obligations.ErrorsByCommand := by
  unfold Obligations.ErrorsByCommand
  refine fun s t hs => ⟨fun w e hp he h => ?_, fun _ _ _ _ => err_of_exec_modmul, fun _ _ _ _ => err_of_exec_modexp,
    fun _ _ _ => err_of_exec_modinv, fun rn h => ?_, fun _ _ => err_of_exec_mrround, fun rn rounds h => ?_⟩
  · cases (completionStep_of_illegal hp he).symm.trans h
    rfl
  · cases (exec_tdiv rn s).symm.trans h
    rfl
  · obtain ⟨hinvalid, hrange, hcodes⟩ := err_afterPtest hs (ptestResult (readReg s rn) rounds s.answers)
    cases (exec_ptest_of_result rfl).symm.trans h
    refine ⟨hinvalid.trans ptestResult_eq_invalidInput_iff, fun htwo => ?_,
      hrange.trans ptestResult_eq_witnessRange_iff, hcodes⟩
    rw [htwo, ptestResult_two]
    exact ⟨rfl, rfl⟩

/-- Settles O29: of all that a completion step can do, only `fail` leaves an error code. -/
theorem failureChangesOnlyStatus : Obligations.FailureChangesOnlyStatus := by
  unfold Obligations.FailureChangesOnlyStatus
  intro s t hs h herr
  obtain ⟨w, i, -, -, hexec⟩ | ⟨w, e, -, -, rfl⟩ := completionStep_cases h
  · obtain ⟨e, -, rfl⟩ | ⟨b, -, rfl⟩ | ⟨rd, v, -, rfl⟩ | ⟨rn, rounds, -, -, rfl⟩ := exec_cases hexec
    · rfl
    · exact absurd rfl herr
    · exact absurd rfl herr
    · exact absurd hs herr
  · rfl

/-- Settles O53: a strict step stops at an undefined source, or where the step does. -/
theorem onlyUndefinedSourcesAndMisplacedAccessesStop : Obligations.OnlyUndefinedSourcesAndMisplacedAccessesStop := by
  unfold Obligations.OnlyUndefinedSourcesAndMisplacedAccessesStop
  intro W s hs
  obtain ⟨hnofault, hmisplaced⟩ := onlyMisplacedAccessesStop W s hs
  obtain ⟨r, w, i, hturn, hb, hp, hi, hr, hstrict⟩ | ⟨-, hstrict⟩ := strictStepAt_cases W s <;> rw [hstrict]
  · obtain ⟨hmem, hundef⟩ := undefinedSource_spec hr
    refine ⟨fun f hf => ?_, fun e he => by cases he⟩
    cases hf
    exact ⟨r, w, i, rfl, hb, hp, hi, hmem, hundef, (engineHasTurn_iff s).1 hturn⟩
  · refine ⟨fun f hf => ?_, fun e he => hmisplaced e ((strictOutcome_eq_refused _ e).1 he)⟩
    cases f with
    | undefinedSource r => exact absurd hf (strictOutcome_ne_undefinedSource _ r)
    | ofStep f => exact absurd ((strictOutcome_eq_ofStep _ f).1 hf) (hnofault f)

/-- Settles O55: while an error is shown the engine is idle, and only the host's turn can change STATUS. -/
theorem errorStaysUntilCleared : Obligations.ErrorStaysUntilCleared := by
  unfold Obligations.ErrorStaysUntilCleared
  intro W s t hs herr h hne
  have hb := hs.idle_of_err herr
  obtain ⟨-, h⟩ | ⟨rest, -, h⟩ | ⟨a, rest, ha, h⟩ | ⟨draw, r, rest, -, rfl⟩ | ⟨between, rest, -, rfl⟩ := stepAt_cases h
  · cases (engineTurn_of_idle hb).symm.trans h
    exact absurd rfl hne
  · cases (engineTurn_of_idle (s := { s with agenda := rest }) hb).symm.trans h
    exact absurd rfl hne
  · obtain ⟨hclear, ⟨v, rfl⟩ | ⟨v, hbit, rfl⟩ | rfl⟩ := hostAct_changes_err h hne
    · exact ⟨hclear, rest, .inl ⟨v, ha⟩⟩
    · exact ⟨hclear, rest, .inr (.inl ⟨v, hbit, ha⟩)⟩
    · exact ⟨hclear, rest, .inr (.inr ha)⟩
  · exact absurd (congrArg Status.err (rngAnswer_status W draw r _)) hne
  · exact absurd (congrArg Status.err (hostPoll_status W between rest s)) hne

/-- Settles O58: the request is that of a PTEST which lacks an answer, and only an answer to its draw is kept. -/
theorem answersWhileRequested : Obligations.AnswersWhileRequested := by
  unfold Obligations.AnswersWhileRequested
  refine fun W d r s => ⟨fun lo hi => ?_, fun q hq => ?_, fun hq hd => ?_, fun hno => ?_⟩
  · simp only [rngRequest_eq_some_iff, LacksAnswer, RngRequest.mk.injEq, and_assoc]
  · obtain ⟨-, w, rn, rounds, -, -, ⟨hn, -⟩, rfl⟩ := (rngRequest_eq_some_iff s q).1 hq
    exact Nat.le_sub_one_of_lt hn
  · exact if_pos ⟨(awaitsAnswer_iff_exists_request s).2 hq, hd⟩
  · refine if_neg fun ⟨hawaits, hd⟩ => ?_
    obtain ⟨q, hq⟩ := (awaitsAnswer_iff_exists_request s).1 hawaits
    obtain hnone | hother := hno
    · cases hnone.symm.trans hq
    · exact hother hd

/-- Settles O12: the completion step is enabled only while `BUSY = 1`. -/
theorem idleEngineHoldsState : Obligations.IdleEngineHoldsState := by
  unfold Obligations.IdleEngineHoldsState
  exact fun W s hb => ⟨engineTurn_of_idle hb, fun ha => (stepAt_of_agenda_nil W ha).trans (engineTurn_of_idle hb),
    fun rest ha => (stepAt_engine W ha).trans (engineTurn_of_idle hb)⟩

end Sys2Proof.Machine

/-! # Lemmas and proofs of the statements of 70_reset_and_hazards.md

The destination of the pending command, which the engine's turn writes and a soft reset aborts; a soft reset field by field;
the host's turn by its effect; the turns that change a register, and those that move the number of the draw; which pending
words wait for no draw; the steps of an ended run; then the statements, each from these. -/

namespace Sys2Proof.Machine

/-! ## The destination of the pending command -/

/-- `x[r]` is the register that the command in `PEND` writes when it completes without error (10_state.md R26). -/
def PendingDestination (s : State) (r : Reg) : Prop :=
  s.status.busy = true ∧ ∃ w i, s.pend = some w ∧ decode w = .ok i ∧ destination i = some r

/-- A soft reset aborts the command whose destination is pending. -/
theorem abortedDest_eq_some_iff (s : State) (r : Reg) : abortedDest s = some r ↔ PendingDestination s r := by
  constructor
  · intro h
    unfold abortedDest at h
    split at h
    case isFalse => cases h
    case isTrue hb =>
      split at h
      case h_2 => cases h
      case h_1 w hp =>
        split at h
        case h_1 i hi => exact ⟨hb, w, i, hp, hi, h⟩
        case h_2 => cases h
  · rintro ⟨hb, w, i, hp, hi, hd⟩
    simp only [abortedDest, hb, hp, hi, hd, if_true]

/-- Only MODMUL, MODEXP and MODINV have a destination (10_state.md R26). -/
theorem destination_eq_some_iff (i : Instr) (r : Reg) :
    destination i = some r ↔ (∃ ra rb rn, i = .modmul r ra rb rn) ∨ (∃ ra rb rn, i = .modexp r ra rb rn) ∨
      ∃ ra rn, i = .modinv r ra rn := by
  cases i <;> simp [destination]

/-! ## A soft reset, field by field -/

@[simp] theorem softReset_pend (W : Nat) (s : State) : (softReset W s).pend = none := by
  obtain ⟨-, h⟩ | ⟨rd, -, h⟩ := softReset_cases W s <;> rw [h] <;> rfl

@[simp] theorem softReset_answers (W : Nat) (s : State) : (softReset W s).answers = [] := by
  obtain ⟨-, h⟩ | ⟨rd, -, h⟩ := softReset_cases W s <;> rw [h] <;> rfl

@[simp] theorem softReset_reads (W : Nat) (s : State) : (softReset W s).reads = s.reads := by
  obtain ⟨-, h⟩ | ⟨rd, -, h⟩ := softReset_cases W s <;> rw [h] <;> rfl

/-- An aborted destination becomes a free value with every limb undefined, and the counter of free values moves on. -/
theorem softReset_of_pendingDestination (W : Nat) {s : State} {r : Reg} (h : PendingDestination s r) :
    softReset W s = clearSequencer (forgetReg W s r) := by
  rw [softReset, (abortedDest_eq_some_iff s r).2 h]

/-- Any other register keeps its value and its marks. -/
theorem softReset_of_not_pendingDestination (W : Nat) {s : State} {r : Reg} (h : ¬ PendingDestination s r) :
    readReg (softReset W s) r = readReg s r ∧ undefLimbs (softReset W s) r = undefLimbs s r := by
  obtain ⟨-, hreset⟩ | ⟨rd, hrd, hreset⟩ := softReset_cases W s <;> rw [hreset]
  · exact ⟨rfl, rfl⟩
  · have hne : r ≠ rd := by
      rintro rfl
      exact h ((abortedDest_eq_some_iff s r).1 hrd)
    simp [hne]

theorem hostWrite_softReset (W : Nat) {v : Word} (hv : v.getLsbD 0 = true) (s : State) :
    hostWrite W 4 0x008 v s = .next (softReset W s) := by
  rw [hostWrite_of_slot (checkAccess_ctrl W), writeSlot_softReset W hv]

/-! ## The host's turn, by its effect -/

/-- What the host's turn can make of a state, and by which action (20_memory.md R36 to R39, 70_reset_and_hazards.md R135,
R136). -/
inductive HostEffect (W : Nat) (s : State) : HostAction → State → Prop where
  /-- A read changes only the host's record and the counter of free values. -/
  | read (size addr : Nat) (words : List Word) (counter : Nat) :
      HostEffect W s (.read size addr) { s with reads := words, fresh := counter }
  /-- A write without effect. -/
  | lost (size addr : Nat) (v : Word) : HostEffect W s (.write size addr v) s
  | accepted (v : Word) (hb : s.status.busy = false) : HostEffect W s (.write 4 0x000 v) (acceptCommand v s)
  | limb (r : Reg) (j : Nat) (v : Word) (hb : s.status.busy = false) (hj : j < Config.limbs W) :
      HostEffect W s (.write 4 (0x100 + 4 * (r.val * Config.limbs W + j)) v) (writeLimb W s r j v)
  | softReset (v : Word) (hv : v.getLsbD 0 = true) : HostEffect W s (.write 4 0x008 v) (softReset W s)
  | hardReset : HostEffect W s .hardReset (hardReset W s)

theorem hostEffect_readSlot (W size addr : Nat) (slot : Slot) (s : State) :
    HostEffect W s (.read size addr) (readSlot W slot s) := by
  obtain ⟨v, -, h⟩ | ⟨-, h⟩ := readSlot_cases W slot s <;> rw [h] <;> exact .read size addr _ _

theorem hostEffect_writeSlot {W size addr : Nat} {slot : Slot} (hok : checkAccess W size addr = .ok slot) (v : Word)
    (s : State) : HostEffect W s (.write size addr v) (writeSlot W slot v s) := by
  obtain rfl := size_of_checkAccess hok
  obtain ⟨rfl, h⟩ | h | ⟨hb, rfl, h⟩ | ⟨r, j, hb, rfl, h⟩ := writeSlot_cases W slot v s
  · obtain rfl := addr_of_checkAccess_ctrl hok
    cases hv : v.getLsbD 0 with
    | true => rw [h]; exact .softReset v hv
    | false => rw [writeSlot_of_unwritable W s (.inr (.inr (.inl ⟨rfl, hv⟩)))]; exact .lost _ _ v
  · rw [h]; exact .lost _ _ v
  · obtain rfl := addr_of_checkAccess_cmd hok
    rw [h]; exact .accepted v hb
  · obtain ⟨hj, rfl⟩ := addr_of_checkAccess_limb hok
    rw [h]; exact .limb r j v hb hj

theorem hostEffect_of_hostAct {W : Nat} {a : HostAction} {s t : State} (h : hostAct W a s = .next t) :
    HostEffect W s a t := by
  obtain ⟨size, addr, slot, rfl, -, rfl⟩ | ⟨size, addr, v, slot, rfl, hok, rfl⟩ | ⟨rfl, rfl⟩ := hostAct_cases h
  · exact hostEffect_readSlot W size addr slot s
  · exact hostEffect_writeSlot hok v s
  · exact .hardReset

/-- While `BUSY = 1` the host can only read, or reset (20_memory.md R39, 70_reset_and_hazards.md R139). -/
theorem hostAct_of_busy {W : Nat} {a : HostAction} {s t : State} (hb : s.status.busy = true)
    (h : hostAct W a s = .next t) :
    (∃ words counter, t = { s with reads := words, fresh := counter }) ∨ a = .hardReset ∨
      ∃ v : Word, v.getLsbD 0 = true ∧ a = .write 4 0x008 v := by
  cases hostEffect_of_hostAct h with
  | read size addr words counter => exact .inl ⟨words, counter, rfl⟩
  | lost => exact .inl ⟨s.reads, s.fresh, rfl⟩
  | accepted v hidle => cases hidle.symm.trans hb
  | limb r j v hidle => cases hidle.symm.trans hb
  | softReset v hv => exact .inr (.inr ⟨v, hv, rfl⟩)
  | hardReset => exact .inr (.inl rfl)

/-! ## The turns that change a register -/

/-- The value or the marks of `x[r]` differ. -/
def RegChanged (s t : State) (r : Reg) : Prop := readReg t r ≠ readReg s r ∨ undefLimbs t r ≠ undefLimbs s r

theorem not_regChanged {s t : State} {r : Reg} (hx : t.x = s.x) (hu : t.undef = s.undef) : ¬ RegChanged s t r := by
  rintro (h | h)
  · exact h (readReg_congr hx r)
  · exact h (undefLimbs_congr hu r)

/-- Where one register is set, no other changes. -/
theorem RegChanged.eq_of_set {s t : State} {r q : Reg} {v : Nat} {m : List Nat} (h : RegChanged s t r)
    (hx : t.x = s.x.set q.val v) (hu : t.undef = s.undef.set q.val m) : r = q := by
  by_contra hne
  obtain h | h := h
  · exact h (by rw [readReg_of_set hx, if_neg hne])
  · exact h (by rw [undefLimbs_of_set hu, if_neg hne])

/-- The engine changes only the destination of the command that it completes. -/
theorem RegChanged.of_engineTurn {s t : State} {r : Reg} (hr : RegChanged s t r) (h : engineTurn s = .next t) :
    PendingDestination s r := by
  obtain ⟨-, rfl⟩ | ⟨w, i, hb, hp, hi, hexec⟩ | ⟨w, e, -, -, -, rfl⟩ := engineTurn_cases h
  · exact absurd hr (not_regChanged rfl rfl)
  · obtain ⟨e, -, rfl⟩ | ⟨b, -, rfl⟩ | ⟨rd, v, hd, rfl⟩ | ⟨rn, rounds, -, -, rfl⟩ := exec_cases hexec
    · exact absurd hr (not_regChanged rfl rfl)
    · exact absurd hr (not_regChanged rfl rfl)
    · obtain rfl := hr.eq_of_set (doneWrite_x rd v s) (doneWrite_undef rd v s)
      exact ⟨hb, w, i, hp, hi, hd⟩
    · exact absurd hr (not_regChanged rfl rfl)
  · exact absurd hr (not_regChanged rfl rfl)

/-- The host changes a register by writing one of its limbs in IDLE, by a soft reset that aborts its command, or by a hard
reset. -/
theorem RegChanged.of_hostAct {W : Nat} {a : HostAction} {s t : State} {r : Reg} (hr : RegChanged s t r)
    (h : hostAct W a s = .next t) :
    (∃ v j, s.status.busy = false ∧ j < Config.limbs W ∧ a = .write 4 (0x100 + 4 * (r.val * Config.limbs W + j)) v) ∨
    (PendingDestination s r ∧ ∃ v : Word, v.getLsbD 0 = true ∧ a = .write 4 0x008 v) ∨ a = .hardReset := by
  cases hostEffect_of_hostAct h with
  | read => exact absurd hr (not_regChanged rfl rfl)
  | lost => exact absurd hr (not_regChanged rfl rfl)
  | accepted => exact absurd hr (not_regChanged rfl rfl)
  | limb q j v hb hj =>
    obtain rfl := hr.eq_of_set (writeLimb_x W s q j v) (writeLimb_undef W s q j v)
    exact .inl ⟨v, j, hb, hj, rfl⟩
  | softReset v hv =>
    have hdest : PendingDestination s r := by
      by_contra hno
      obtain ⟨hx, hu⟩ := softReset_of_not_pendingDestination W hno
      exact hr.elim (absurd hx) (absurd hu)
    exact .inr (.inl ⟨hdest, v, hv, rfl⟩)
  | hardReset => exact .inr (.inr rfl)

theorem rngAnswer_x (W draw r : Nat) (s : State) : (rngAnswer W draw r s).x = s.x := by
  obtain ⟨-, -, h⟩ | ⟨-, h⟩ := rngAnswer_cases W draw r s <;> rw [h]

theorem rngAnswer_undef (W draw r : Nat) (s : State) : (rngAnswer W draw r s).undef = s.undef := by
  obtain ⟨-, -, h⟩ | ⟨-, h⟩ := rngAnswer_cases W draw r s <;> rw [h]

theorem hostPoll_x (W : Nat) (between : List (List OtherTurn)) (rest : List Event) (s : State) :
    (hostPoll W between rest s).x = s.x := by
  rw [hostPoll_eq]

theorem hostPoll_undef (W : Nat) (between : List (List OtherTurn)) (rest : List Event) (s : State) :
    (hostPoll W between rest s).undef = s.undef := by
  rw [hostPoll_eq]

/-! ## The number of the draw -/

/-- An answer to another draw than the one that stands is discarded. -/
theorem rngAnswer_of_other_draw (W r : Nat) {d : Nat} {s : State} (h : d ≠ s.draws) : rngAnswer W d r s = s :=
  if_neg fun hkept => h hkept.2

/-- No draw stands in IDLE, so every answer is discarded. -/
theorem rngAnswer_of_idle (W d r : Nat) {s : State} (hb : s.status.busy = false) : rngAnswer W d r s = s := by
  refine if_neg fun ⟨hawaits, _⟩ => ?_
  obtain ⟨hbusy, -⟩ := (awaitsAnswer_iff s).1 hawaits
  cases hb.symm.trans hbusy

theorem exec_draws {i : Instr} {s t : State} (h : exec i s = .next t) : t.draws = s.draws := by
  obtain ⟨e, -, rfl⟩ | ⟨b, -, rfl⟩ | ⟨rd, v, -, rfl⟩ | ⟨rn, rounds, -, -, rfl⟩ := exec_cases h <;> rfl

theorem engineTurn_draws {s t : State} (h : engineTurn s = .next t) : t.draws = s.draws := by
  obtain ⟨-, rfl⟩ | ⟨w, i, -, -, -, hexec⟩ | ⟨w, e, -, -, -, rfl⟩ := engineTurn_cases h
  · rfl
  · exact exec_draws hexec
  · rfl

theorem hostAct_draws_le {W : Nat} {a : HostAction} {s t : State} (h : hostAct W a s = .next t) : s.draws ≤ t.draws := by
  cases hostEffect_of_hostAct h with
  | read | lost | accepted | limb => exact le_rfl
  | softReset => exact (softReset_draws W s).symm ▸ Nat.le_succ _
  | hardReset => exact Nat.le_succ _

theorem rngAnswer_draws_le (W draw r : Nat) (s : State) : s.draws ≤ (rngAnswer W draw r s).draws := by
  obtain ⟨-, -, h⟩ | ⟨-, h⟩ := rngAnswer_cases W draw r s <;> rw [h]
  exact Nat.le_succ _

/-- No step goes back to a number. -/
theorem stepAt_draws_le {W : Nat} {s t : State} (h : stepAt W s = .next t) : s.draws ≤ t.draws := by
  obtain ⟨-, h⟩ | ⟨rest, -, h⟩ | ⟨a, rest, -, h⟩ | ⟨draw, r, rest, -, rfl⟩ | ⟨between, rest, -, rfl⟩ := stepAt_cases h
  · exact (engineTurn_draws h).ge
  · exact (engineTurn_draws (s := { s with agenda := rest }) h).ge
  · exact hostAct_draws_le (s := { s with agenda := rest }) h
  · exact rngAnswer_draws_le W draw r { s with agenda := rest }
  · rw [hostPoll_eq]

/-- A run that goes on has made its first step. -/
theorem exists_step_of_core_run {k : Nat} {s u : State} (h : Sys2Proof.core.run (k + 1) s = .next u) :
    ∃ t, step s = .next t ∧ Sys2Proof.core.run k t = .next u := by
  simp only [Host.Core.run] at h
  split at h
  case h_1 t hstep => exact ⟨t, hstep, h⟩
  case h_2 => cases h
  case h_3 => cases h

theorem run_draws_le (k : Nat) {s u : State} (h : Sys2Proof.core.run k s = .next u) : s.draws ≤ u.draws := by
  induction k generalizing s with
  | zero => cases h; exact le_rfl
  | succ k ih =>
    obtain ⟨t, hstep, hrest⟩ := exists_step_of_core_run h
    exact (stepAt_draws_le hstep).trans (ih hrest)

/-- A soft or a hard reset at the host's turn passes over the draw that stands. -/
theorem stepAt_draws_of_reset {W : Nat} {s t : State} {rest : List Event}
    (ha : s.agenda = .host .hardReset :: rest ∨
      ∃ v : Word, v.getLsbD 0 = true ∧ s.agenda = .host (.write 4 0x008 v) :: rest)
    (h : stepAt W s = .next t) : t.draws = s.draws + 1 := by
  obtain ha | ⟨v, hv, ha⟩ := ha
  · cases (stepAt_host W ha).symm.trans h
    rfl
  · cases ((stepAt_host W ha).trans (hostWrite_softReset W hv _)).symm.trans h
    exact softReset_draws W _

theorem stepAt_rng (W : Nat) {s : State} {d r : Nat} {rest : List Event} (h : s.agenda = .rng d r :: rest) :
    stepAt W s = .next (rngAnswer W d r { s with agenda := rest }) := by
  simp only [stepAt, h]

/-! ## Completion, and waiting for a draw -/

/-- In IDLE no command is pending (10_state.md R15). -/
theorem Inv.pend_eq_none {W : Nat} {s : State} (hs : Inv W s) (hb : s.status.busy = false) : s.pend = none :=
  Option.not_isSome_iff_eq_none.1 fun hp => by cases hb.symm.trans (hs.busyPend.trans hp)

/-- A word that is no PTEST, or a PTEST with an answer for each round, waits for no draw. -/
theorem awaitsAnswer_eq_false {s : State} {w : Word} (hp : s.pend = some w)
    (hw : (∀ rn rounds, decode w ≠ .ok (.ptest rn rounds)) ∨
      ∃ rn rounds, decode w = .ok (.ptest rn rounds) ∧ rounds ≤ s.answers.length) : awaitsAnswer s = false := by
  rw [← Bool.not_eq_true, awaitsAnswer_iff]
  rintro ⟨-, w', rn, rounds, hp', hw', hwait⟩
  cases hp.symm.trans hp'
  obtain hother | ⟨rn, rounds, hw, hlen⟩ := hw
  · exact hother rn rounds hw'
  · cases hw.symm.trans hw'
    obtain ⟨-, hlt, -⟩ := ptestResult_eq_waiting_iff.1 hwait
    exact absurd hlen (Nat.not_le_of_lt hlt)

/-! ## The steps of a run that has ended -/

/-- In IDLE the turns of the engine and of the environment change nothing but the agenda. -/
theorem Finished.stepAt (W : Nat) {s : State} (h : Finished s) :
    stepAt W s = .next { s with agenda := s.agenda.tail } := by
  obtain ⟨hturns, hb⟩ := h
  cases ha : s.agenda with
  | nil =>
    rw [stepAt_of_agenda_nil W ha, engineTurn_of_idle hb, List.tail_nil, ← ha]
  | cons e rest =>
    have he : isHostTurn e = false := hturns e (ha ▸ List.mem_cons_self)
    cases e with
    | host a => cases he
    | poll between => cases he
    | rng d r => exact (stepAt_rng W ha).trans (congrArg _ (rngAnswer_of_idle W d r hb))
    | engine => exact (stepAt_engine W ha).trans (engineTurn_of_idle hb)

theorem Finished.tail {s : State} (h : Finished s) : Finished { s with agenda := s.agenda.tail } :=
  ⟨fun e he => h.1 e (List.mem_of_mem_tail he), h.2⟩

theorem Finished.run (k : Nat) {s : State} (h : Finished s) :
    ∃ t, Sys2Proof.core.run k s = .next t ∧ Finished t ∧ runResult t = runResult s := by
  induction k generalizing s with
  | zero => exact ⟨s, rfl, h, rfl⟩
  | succ k ih =>
    rw [core_run_succ (h.stepAt Config.width) k]
    exact ih h.tail

theorem isHostTurn_eq_false_iff (e : Event) :
    isHostTurn e = false ↔ (∀ a, e ≠ .host a) ∧ ∀ between, e ≠ .poll between := by
  cases e <;> simp [isHostTurn]

/-! ## The statements -/

/-- Settles O46: while `BUSY = 1` the host's turn only reads or resets, and STATUS is 1. -/
theorem busyEngineIsUndisturbed : Obligations.BusyEngineIsUndisturbed := by
  unfold Obligations.BusyEngineIsUndisturbed
  intro W a s t hs hb h
  refine ⟨?_, ?_⟩
  · obtain ⟨words, counter, rfl⟩ | hreset := hostAct_of_busy hb h
    · exact .inl ⟨rfl, rfl, rfl, rfl, rfl, rfl⟩
    · exact .inr hreset
  · rw [← hs.statusWord_of_busy hb]
    exact hostRead_of_slot (checkAccess_status W) s

/-- Settles O50: the soft reset field by field, and each register by whether it is the aborted destination. -/
theorem softResetEffect : Obligations.SoftResetEffect := by
  unfold Obligations.SoftResetEffect
  intro W v s hv
  have hidle : (softReset W s).status.busy = false := congrArg Status.busy (softReset_status W s)
  refine ⟨_, hostWrite_softReset W hv s, softReset_status W s, softReset_pend W s, softReset_answers W s,
    softReset_draws W s, softReset_agenda W s, softReset_reads W s, fun r => ?_, fun w => hostWrite_cmd W w hidle,
    fun d a => rngAnswer_of_idle W d a hidle⟩
  by_cases hdest : PendingDestination s r
  · rw [softReset_of_pendingDestination W hdest]
    obtain ⟨hb, w, i, hp, hi, hd⟩ := hdest
    refine .inl ⟨hb, w, hp, ?_, fun j hj => ?_, by simp, rfl⟩
    · rw [hi]
      simpa only [Except.ok.injEq] using (destination_eq_some_iff i r).1 hd
    · simp [limbDefined, hj]
  · obtain ⟨hx, hu⟩ := softReset_of_not_pendingDestination W hdest
    exact .inr ⟨fun w hb hp i hi hd => hdest ⟨hb, w, i, hp, hi, hd⟩, hx, hu⟩

/-- Settles O54: an ended run takes its last turns in IDLE, where they change nothing of the result. -/
theorem finishedRunsStayFinished : Obligations.FinishedRunsStayFinished := by
  unfold Obligations.FinishedRunsStayFinished
  refine ⟨fun k s h => h.run k, fun s hb => ⟨fun ⟨_, hidle⟩ => ?_, fun ha => ?_⟩, fun s hb => ?_⟩
  · cases hidle.symm.trans hb
  · exact (stepAt_of_agenda_nil Config.width ha).trans (if_pos hb)
  · simp only [Finished, hb, and_true, isHostTurn_eq_false_iff]
    constructor
    · exact fun h => ⟨fun a hmem => (h _ hmem).1 a rfl, fun between hmem => (h _ hmem).2 between rfl⟩
    · rintro ⟨hhost, hpoll⟩ e hmem
      exact ⟨fun a he => hhost a (he ▸ hmem), fun between he => hpoll between (he ▸ hmem)⟩

/-- Settles O56: the turns of the engine and of the host by what they change; the other turns change no register. -/
theorem registerChangesOnlyBy : Obligations.RegisterChangesOnlyBy := by
  unfold Obligations.RegisterChangesOnlyBy
  intro W s t r h hr
  obtain ⟨ha, h⟩ | ⟨rest, ha, h⟩ | ⟨a, rest, ha, h⟩ | ⟨draw, b, rest, -, rfl⟩ | ⟨between, rest, -, rfl⟩ := stepAt_cases h
  · obtain ⟨hb, w, i, hp, hi, hd⟩ := RegChanged.of_engineTurn hr h
    exact .inr (.inl ⟨hb, w, i, hp, hi, hd, .inl ha⟩)
  · obtain ⟨hb, w, i, hp, hi, hd⟩ := RegChanged.of_engineTurn (s := { s with agenda := rest }) hr h
    exact .inr (.inl ⟨hb, w, i, hp, hi, hd, .inr (.inl ⟨rest, ha⟩)⟩)
  · obtain ⟨v, j, hb, hj, rfl⟩ | ⟨⟨hb, w, i, hp, hi, hd⟩, v, hv, rfl⟩ | rfl :=
      RegChanged.of_hostAct (s := { s with agenda := rest }) hr h
    · exact .inl ⟨v, j, rest, hb, hj, ha⟩
    · exact .inr (.inl ⟨hb, w, i, hp, hi, hd, .inr (.inr ⟨v, rest, hv, ha⟩)⟩)
    · exact .inr (.inr ⟨rest, ha⟩)
  · exact absurd hr (not_regChanged (rngAnswer_x W draw b _) (rngAnswer_undef W draw b _))
  · exact absurd hr (not_regChanged (hostPoll_x W between rest s) (hostPoll_undef W between rest s))

/-- Settles O57: a word that lacks no answer completes; one that lacks an answer stays `BUSY` but for the resets. -/
theorem acceptedCommandsComplete : Obligations.AcceptedCommandsComplete := by
  unfold Obligations.AcceptedCommandsComplete
  refine ⟨fun W s w hs hp hword => ?_, fun W s t hawaits h => ?_⟩
  · have hb : s.status.busy = true := by rw [hs.busyPend, hp, Option.isSome_some]
    obtain ⟨t, ht, hidle, hdone, -⟩ := hs.engineTurn_completes hb (awaitsAnswer_eq_false hp hword)
    exact ⟨t, ht, hidle, hdone, (inv_engineTurn hs ht).pend_eq_none hidle⟩
  · obtain ⟨hb, -⟩ := (awaitsAnswer_iff s).1 hawaits
    obtain ⟨-, h⟩ | ⟨rest, -, h⟩ | ⟨a, rest, ha, h⟩ | ⟨draw, r, rest, -, rfl⟩ | ⟨between, rest, -, rfl⟩ := stepAt_cases h
    · cases (engineTurn_of_awaitsAnswer hawaits).symm.trans h
      exact .inl hb
    · cases (engineTurn_of_awaitsAnswer (s := { s with agenda := rest }) hawaits).symm.trans h
      exact .inl hb
    · obtain ⟨words, counter, rfl⟩ | rfl | ⟨v, hv, rfl⟩ := hostAct_of_busy (s := { s with agenda := rest }) hb h
      · exact .inl hb
      · exact .inr (.inl ⟨rest, ha⟩)
      · exact .inr (.inr ⟨v, rest, hv, ha⟩)
    · exact .inl ((congrArg Status.busy (rngAnswer_status W draw r _)).trans hb)
    · exact .inl ((congrArg Status.busy (hostPoll_status W between rest s)).trans hb)

/-- Settles O59: the number of the draw only grows, and a reset passes over the one that stands. -/
theorem lateAnswersAreDiscarded : Obligations.LateAnswersAreDiscarded := by
  unfold Obligations.LateAnswersAreDiscarded
  refine ⟨fun W d r s => rngAnswer_of_other_draw W r, fun W s t => stepAt_draws_le,
    fun s t u rest k d r ha hstep hrun hd => ?_⟩
  have hreset : t.draws = s.draws + 1 := stepAt_draws_of_reset ha hstep
  have hlater : t.draws ≤ u.draws := run_draws_le k hrun
  have hdiscard : rngAnswer Config.width d r u = u := rngAnswer_of_other_draw _ r (by omega)
  exact ⟨hdiscard, (stepAt_rng Config.width rfl).trans (congrArg _ hdiscard)⟩

/-- Settles O33: a square is a multiple of its root. -/
theorem aliasedModmulGivesZero : Obligations.AliasedModmulGivesZero := by
  unfold Obligations.AliasedModmulGivesZero
  intro r s hpos
  rw [exec_modmul_of_modulus_ne_zero hpos.ne', Nat.mul_mod_left]
  rfl

/-- Settles O49: the hard reset field by field. -/
theorem hardResetEffect : Obligations.HardResetEffect := by
  unfold Obligations.HardResetEffect
  intro W s
  exact ⟨rfl, rfl, rfl, rfl, fun r j hj => by simp [hj], readReg_hardReset W s, rfl, rfl, rfl, inv_hardReset W s, rfl⟩

end Sys2Proof.Machine
